-- ==== Sys2Proof/Word.lean ====
section
/-! DEFINITION. The word type of the hardware (00_scope.md R4): a word is 32 bits, its sums wrap, bit 0 is the least
significant. Nothing but the type and its plainest use of `BitVec`: every field cut, extension and comparison the
instructions use stands in Decode.lean, Machine/Operands.lean and Machine/Flags.lean. -/

namespace Sys2Proof

/-- A word: an element of 0 to 2^32 - 1 (00_scope.md R4). -/
abbrev Word := BitVec 32

/-- A register index, a 5-bit field of the instruction (30_encoding.md R51): it cannot leave 0 to 31 (10_state.md R14). -/
abbrev RegIdx := BitVec 5

end Sys2Proof
end

