-- ==== Sys2Proof/Machine/Flags.lean ====
section
/-! DEFINITION. The one flag, the ALU's zero flag, a value of one cycle that no state holds (10_state.md R18), and the signed
comparison. There is no carry and no overflow flag (41_datapath.md R107). -/

namespace Sys2Proof.Machine

/-- `zero`: 1 exactly when the result word is zero, for every operation (41_datapath.md R105). -/
def zeroFlag (result : Word) : Bool := result == 0#32

/-- `signed(v)`: the two's-complement reading of a word (00_scope.md R4). -/
def signed (v : Word) : Int := if v.toNat < 2 ^ 31 then (v.toNat : Int) else (v.toNat : Int) - 2 ^ 32

/-- Set-less-than: 1 when the first operand is less than the second as signed numbers, else 0; exact at every pair
(41_datapath.md R104, R107). -/
def setLessThan (a b : Word) : Word := if signed a < signed b then 1#32 else 0#32

end Sys2Proof.Machine
end

