-- ==== Sys2Proof/Syntax.lean ====
section
/-! DEFINITION. The instructions: one constructor for each row of spec/opcode_table.json, in the table's order, its
arguments the fields the row has, from the most significant down. A field the instruction ignores (30_encoding.md R54) is
an argument too, so that no bit of a word is lost (30_encoding.md R62). Beside them the assembler lines of 30_encoding.md
R58 and R59, a notation of the spec and not something the hardware sees. -/

namespace Sys2Proof

/-- The eighteen instructions. `imm` is the raw 16-bit field `imm16`, `address` the raw 26-bit field. -/
inductive Instr where
  | sll   (rs rt rd shamt : BitVec 5)
  | add   (rs rt rd shamt : BitVec 5)
  | addu  (rs rt rd shamt : BitVec 5)
  | sub   (rs rt rd shamt : BitVec 5)
  | subu  (rs rt rd shamt : BitVec 5)
  | and   (rs rt rd shamt : BitVec 5)
  | or    (rs rt rd shamt : BitVec 5)
  | xor   (rs rt rd shamt : BitVec 5)
  | slt   (rs rt rd shamt : BitVec 5)
  | j     (address : BitVec 26)
  | beq   (rs rt : BitVec 5) (imm : BitVec 16)
  | bne   (rs rt : BitVec 5) (imm : BitVec 16)
  | addi  (rs rt : BitVec 5) (imm : BitVec 16)
  | addiu (rs rt : BitVec 5) (imm : BitVec 16)
  | slti  (rs rt : BitVec 5) (imm : BitVec 16)
  | lui   (rs rt : BitVec 5) (imm : BitVec 16)
  | lw    (rs rt : BitVec 5) (imm : BitVec 16)
  | sw    (rs rt : BitVec 5) (imm : BitVec 16)
  deriving DecidableEq, Repr

/-- The assembler lines `op rd, rs, rt` (30_encoding.md R58). -/
inductive RegOp where
  | add | addu | sub | subu | and | or | xor | slt
  deriving DecidableEq, Repr

/-- The assembler lines `op rt, rs, imm` (30_encoding.md R58). -/
inductive ImmOp where
  | addi | addiu | slti
  deriving DecidableEq, Repr

/-- A line of assembly as it is written, its operands not yet checked (30_encoding.md R58): registers, targets and
labels are natural numbers, signed immediates integers. `nop` is the one pseudo-instruction (30_encoding.md R59). -/
inductive Asm where
  | sll (rd rt shamt : Nat)
  | reg (op : RegOp) (rd rs rt : Nat)
  | j (target : Nat)
  | beq (rs rt label : Nat)
  | bne (rs rt label : Nat)
  | imm (op : ImmOp) (rt rs : Nat) (imm : Int)
  | lui (rt imm : Nat)
  | lw (rt : Nat) (offset : Int) (rs : Nat)
  | sw (rt : Nat) (offset : Int) (rs : Nat)
  | nop
  deriving DecidableEq, Repr

end Sys2Proof
end

