-- ==== Sys2Proof/Config.lean ====
section
/-! DEFINITION. What 00_scope.md R3 fixes for every machine of this kind. The OPEN parameters (the two memory sizes,
the two images, END_PC) are not here: the first four are launch data of State, the last is an argument of a run. The values
State.reset takes for them stand in Machine/Launch.lean. -/

namespace Sys2Proof.Config

/-- The largest number of words either memory can have (00_scope.md R3). -/
def maxMemoryWords : Nat := 2 ^ 30

/-- The number of general registers, register 0 among them (00_scope.md R3). -/
def registerCount : Nat := 32

end Sys2Proof.Config
end

