-- ==== Sys2Proof/WellFormed.lean ====
section
/-! DEFINITION. What makes a line of assembly one the assembler accepts at an address (30_encoding.md R58). A term of
`Instr` needs no such check: each of its fields has the width of the encoding in its type, so that every term is well
formed ("cannot occur: indices are 5-bit fields", 93_implementation_defined.md U3). -/

namespace Sys2Proof

/-- Register operands are `$0` to `$31` (30_encoding.md R58). -/
def Asm.registerOk (r : Nat) : Bool := r < Config.registerCount

/-- A signed 16-bit immediate or offset: -32768 to 32767 (30_encoding.md R58). -/
def Asm.signedImmOk (v : Int) : Bool := -32768 ≤ v && v ≤ 32767

/-- The address of the instruction after the one at `pc`, as a number. -/
def Asm.next (pc : Word) : Nat := (pc + 4#32).toNat

/-- A branch label is a 32-bit byte address, a multiple of 4, whose distance from `pc + 4` in words fits 16 signed bits
(30_encoding.md R58). The distance is a difference of integers: no label is reached by wrapping (log 14). -/
def Asm.labelOk (pc : Word) (label : Nat) : Bool :=
  label < 2 ^ 32 && label % 4 == 0 &&
    Asm.signedImmOk (((label : Int) - (Asm.next pc : Int)) / 4)

/-- A jump target is a 32-bit byte address, a multiple of 4, in the 256 MiB block of `pc + 4` (30_encoding.md R58). -/
def Asm.targetOk (pc : Word) (target : Nat) : Bool :=
  target < 2 ^ 32 && target % 4 == 0 && target / 2 ^ 28 == Asm.next pc / 2 ^ 28

/-- The line is one the assembler accepts at address `pc` (30_encoding.md R58). -/
def Asm.wellFormed (pc : Word) : Asm → Bool
  | .sll rd rt shamt => Asm.registerOk rd && Asm.registerOk rt && shamt < 32
  | .reg _ rd rs rt => Asm.registerOk rd && Asm.registerOk rs && Asm.registerOk rt
  | .j target => Asm.targetOk pc target
  | .beq rs rt label => Asm.registerOk rs && Asm.registerOk rt && Asm.labelOk pc label
  | .bne rs rt label => Asm.registerOk rs && Asm.registerOk rt && Asm.labelOk pc label
  | .imm _ rt rs v => Asm.registerOk rt && Asm.registerOk rs && Asm.signedImmOk v
  | .lui rt v => Asm.registerOk rt && v < 2 ^ 16
  | .lw rt offset rs => Asm.registerOk rt && Asm.registerOk rs && Asm.signedImmOk offset
  | .sw rt offset rs => Asm.registerOk rt && Asm.registerOk rs && Asm.signedImmOk offset
  | .nop => true

end Sys2Proof
end

