-- ==== Sys2Proof/Decode.lean ====
section
/-! DEFINITION. From words to instructions and back: the Field Extractor (30_encoding.md R51, 40_decoder.md R70), the
two-level decode (30_encoding.md R55 to R57), the encoder (30_encoding.md R58, encoding formulas), the opcode table as rows of
mask and match (30_encoding.md R64), the assembler (30_encoding.md R58). The numbers of the codes are the spec's decision D1
(log 9). -/

namespace Sys2Proof

/-! ### The Field Extractor -/

/-- The Instruction Fields record: the nine outputs of the Field Extractor (30_encoding.md R51). -/
structure Fields where
  opcode  : BitVec 6
  rs      : RegIdx
  rt      : RegIdx
  rd      : RegIdx
  shamt   : BitVec 5
  funct   : BitVec 6
  imm16   : BitVec 16
  imm32   : Word
  address : BitVec 26
  deriving DecidableEq, Repr

/-- `opcode = bits[31:26]` (30_encoding.md R51). -/
def opcodeOf (w : Word) : BitVec 6 := w.extractLsb' 26 6

/-- `rs = bits[25:21]` (30_encoding.md R51). -/
def rsOf (w : Word) : RegIdx := w.extractLsb' 21 5

/-- `rt = bits[20:16]` (30_encoding.md R51). -/
def rtOf (w : Word) : RegIdx := w.extractLsb' 16 5

/-- `rd = bits[15:11]` (30_encoding.md R51). -/
def rdOf (w : Word) : RegIdx := w.extractLsb' 11 5

/-- `shamt = bits[10:6]` (30_encoding.md R51). -/
def shamtOf (w : Word) : BitVec 5 := w.extractLsb' 6 5

/-- `funct = bits[5:0]` (30_encoding.md R51). -/
def functOf (w : Word) : BitVec 6 := w.extractLsb' 0 6

/-- `imm16 = bits[15:0]` (30_encoding.md R51). -/
def imm16Of (w : Word) : BitVec 16 := w.extractLsb' 0 16

/-- `address = bits[25:0]` (30_encoding.md R51). -/
def addressOf (w : Word) : BitVec 26 := w.extractLsb' 0 26

/-- `sext_32`: a 16-bit value widened to 32 bits by replicating its bit 15 (00_scope.md R4, 40_decoder.md R71). -/
def sext32 (v : BitVec 16) : Word := v.signExtend 32

/-- The Field Extractor: every word is cut the same way, nothing is checked (40_decoder.md R70). -/
def fieldExtractor (w : Word) : Fields where
  opcode  := opcodeOf w
  rs      := rsOf w
  rt      := rtOf w
  rd      := rdOf w
  shamt   := shamtOf w
  funct   := functOf w
  imm16   := imm16Of w
  imm32   := sext32 (imm16Of w)
  address := addressOf w

/-! ### The decoder -/

/-- Why a word is no instruction: "any other `funct` is a decode failure", "any other opcode is a decode failure"
(30_encoding.md R55, R56). -/
inductive DecodeReject where
  | unsupportedFunct (funct : BitVec 6)
  | unsupportedOpcode (opcode : BitVec 6)
  deriving DecidableEq, Repr

/-- The function map, for words whose opcode is 0 (30_encoding.md R56). -/
def decodeFunct (f : Fields) : Except DecodeReject Instr :=
  match f.funct with
  | 0x00#6 => .ok (.sll f.rs f.rt f.rd f.shamt)
  | 0x20#6 => .ok (.add f.rs f.rt f.rd f.shamt)
  | 0x21#6 => .ok (.addu f.rs f.rt f.rd f.shamt)
  | 0x22#6 => .ok (.sub f.rs f.rt f.rd f.shamt)
  | 0x23#6 => .ok (.subu f.rs f.rt f.rd f.shamt)
  | 0x24#6 => .ok (.and f.rs f.rt f.rd f.shamt)
  | 0x25#6 => .ok (.or f.rs f.rt f.rd f.shamt)
  | 0x26#6 => .ok (.xor f.rs f.rt f.rd f.shamt)
  | 0x2A#6 => .ok (.slt f.rs f.rt f.rd f.shamt)
  | other  => .error (.unsupportedFunct other)

/-- The primary map, for words whose opcode is not 0 (30_encoding.md R55). -/
def decodeOpcode (f : Fields) : Except DecodeReject Instr :=
  match f.opcode with
  | 0x02#6 => .ok (.j f.address)
  | 0x04#6 => .ok (.beq f.rs f.rt f.imm16)
  | 0x05#6 => .ok (.bne f.rs f.rt f.imm16)
  | 0x08#6 => .ok (.addi f.rs f.rt f.imm16)
  | 0x09#6 => .ok (.addiu f.rs f.rt f.imm16)
  | 0x0A#6 => .ok (.slti f.rs f.rt f.imm16)
  | 0x0F#6 => .ok (.lui f.rs f.rt f.imm16)
  | 0x23#6 => .ok (.lw f.rs f.rt f.imm16)
  | 0x2B#6 => .ok (.sw f.rs f.rt f.imm16)
  | other  => .error (.unsupportedOpcode other)

/-- The decode function, total on words, a two-level lookup (30_encoding.md R57). -/
def decode (w : Word) : Except DecodeReject Instr :=
  let f := fieldExtractor w
  if f.opcode = 0#6 then decodeFunct f else decodeOpcode f

/-! ### The encoder -/

/-- R format: `(rs << 21) | (rt << 16) | (rd << 11) | (shamt << 6) | funct`, opcode 0 (30_encoding.md R52, R58). -/
def encodeR (funct : BitVec 6) (rs rt rd shamt : BitVec 5) : Word :=
  (rs.setWidth 32 <<< 21) ||| (rt.setWidth 32 <<< 16) ||| (rd.setWidth 32 <<< 11) ||| (shamt.setWidth 32 <<< 6) |||
    funct.setWidth 32

/-- I format: `(opcode << 26) | (rs << 21) | (rt << 16) | imm16` (30_encoding.md R52, R58). -/
def encodeI (opcode : BitVec 6) (rs rt : BitVec 5) (imm : BitVec 16) : Word :=
  (opcode.setWidth 32 <<< 26) ||| (rs.setWidth 32 <<< 21) ||| (rt.setWidth 32 <<< 16) ||| imm.setWidth 32

/-- J format: `(opcode << 26) | address` (30_encoding.md R52, R58). -/
def encodeJ (opcode : BitVec 6) (address : BitVec 26) : Word :=
  (opcode.setWidth 32 <<< 26) ||| address.setWidth 32

/-- The word of an instruction, its ignored fields as the term holds them (30_encoding.md R52, R55, R56). -/
def encode : Instr → Word
  | .sll rs rt rd shamt  => encodeR 0x00#6 rs rt rd shamt
  | .add rs rt rd shamt  => encodeR 0x20#6 rs rt rd shamt
  | .addu rs rt rd shamt => encodeR 0x21#6 rs rt rd shamt
  | .sub rs rt rd shamt  => encodeR 0x22#6 rs rt rd shamt
  | .subu rs rt rd shamt => encodeR 0x23#6 rs rt rd shamt
  | .and rs rt rd shamt  => encodeR 0x24#6 rs rt rd shamt
  | .or rs rt rd shamt   => encodeR 0x25#6 rs rt rd shamt
  | .xor rs rt rd shamt  => encodeR 0x26#6 rs rt rd shamt
  | .slt rs rt rd shamt  => encodeR 0x2A#6 rs rt rd shamt
  | .j address           => encodeJ 0x02#6 address
  | .beq rs rt imm       => encodeI 0x04#6 rs rt imm
  | .bne rs rt imm       => encodeI 0x05#6 rs rt imm
  | .addi rs rt imm      => encodeI 0x08#6 rs rt imm
  | .addiu rs rt imm     => encodeI 0x09#6 rs rt imm
  | .slti rs rt imm      => encodeI 0x0A#6 rs rt imm
  | .lui rs rt imm       => encodeI 0x0F#6 rs rt imm
  | .lw rs rt imm        => encodeI 0x23#6 rs rt imm
  | .sw rs rt imm        => encodeI 0x2B#6 rs rt imm

/-! ### The opcode table -/

/-- The match of an instruction's row of spec/opcode_table.json (30_encoding.md R55, R56). -/
def Instr.rowMatch : Instr → Word
  | .sll ..   => 0x00000000#32
  | .add ..   => 0x00000020#32
  | .addu ..  => 0x00000021#32
  | .sub ..   => 0x00000022#32
  | .subu ..  => 0x00000023#32
  | .and ..   => 0x00000024#32
  | .or ..    => 0x00000025#32
  | .xor ..   => 0x00000026#32
  | .slt ..   => 0x0000002A#32
  | .j ..     => 0x08000000#32
  | .beq ..   => 0x10000000#32
  | .bne ..   => 0x14000000#32
  | .addi ..  => 0x20000000#32
  | .addiu .. => 0x24000000#32
  | .slti ..  => 0x28000000#32
  | .lui ..   => 0x3C000000#32
  | .lw ..    => 0x8C000000#32
  | .sw ..    => 0xAC000000#32

/-- The mask of an instruction's row of spec/opcode_table.json: opcode and funct in the register format, opcode
elsewhere (30_encoding.md R55, R56). -/
def Instr.rowMask : Instr → Word
  | .sll .. | .add .. | .addu .. | .sub .. | .subu .. | .and .. | .or .. | .xor .. | .slt .. => 0xFC00003F#32
  | .j .. | .beq .. | .bne .. | .addi .. | .addiu .. | .slti .. | .lui .. | .lw .. | .sw ..  => 0xFC000000#32

/-- The bits of a word that the instruction ignores: `rs` in sll and lui, `shamt` in the other register-format
instructions, none elsewhere (30_encoding.md R54). -/
def Instr.ignoredBits : Instr → Word
  | .sll .. | .lui .. => 0x03E00000#32
  | .add .. | .addu .. | .sub .. | .subu .. | .and .. | .or .. | .xor .. | .slt .. => 0x000007C0#32
  | .j .. | .beq .. | .bne .. | .addi .. | .addiu .. | .slti .. | .lw .. | .sw ..  => 0x00000000#32

/-- A row of the opcode table: a word is the row's when its bits under `mask` are `value` (30_encoding.md R64). -/
structure OpcodeRow where
  mask  : Word
  value : Word
  deriving DecidableEq, Repr

/-- The word is one of the row's words (30_encoding.md R64). -/
def OpcodeRow.accepts (r : OpcodeRow) (w : Word) : Bool := w &&& r.mask == r.value

/-- The eighteen rows of spec/opcode_table.json, in its order. -/
def opcodeTable : List OpcodeRow :=
  [⟨0xFC00003F#32, 0x00000000#32⟩, ⟨0xFC00003F#32, 0x00000020#32⟩, ⟨0xFC00003F#32, 0x00000021#32⟩,
   ⟨0xFC00003F#32, 0x00000022#32⟩, ⟨0xFC00003F#32, 0x00000023#32⟩, ⟨0xFC00003F#32, 0x00000024#32⟩,
   ⟨0xFC00003F#32, 0x00000025#32⟩, ⟨0xFC00003F#32, 0x00000026#32⟩, ⟨0xFC00003F#32, 0x0000002A#32⟩] ++
  [⟨0xFC000000#32, 0x08000000#32⟩, ⟨0xFC000000#32, 0x10000000#32⟩, ⟨0xFC000000#32, 0x14000000#32⟩,
   ⟨0xFC000000#32, 0x20000000#32⟩, ⟨0xFC000000#32, 0x24000000#32⟩, ⟨0xFC000000#32, 0x28000000#32⟩,
   ⟨0xFC000000#32, 0x3C000000#32⟩, ⟨0xFC000000#32, 0x8C000000#32⟩, ⟨0xFC000000#32, 0xAC000000#32⟩]

/-! ### The host's view of the decoder -/

/-- The word an instruction is stored as when its low `nbits` bits are `w` and the bits above are 0: one 32-bit word,
no byte order (20_memory.md R32, 30_encoding.md R50). -/
def tableWord (nbits w : Nat) : Word := BitVec.ofNat 32 (w % 2 ^ nbits)

/-- The instruction the decoder reads from a word numbered as spec/opcode_table.json numbers it. -/
def decodeTableWord (nbits w : Nat) : Option Instr := (decode (tableWord nbits w)).toOption

/-! ### The assembler (30_encoding.md R58, R59) -/

/-- `imm16 = ((label - (pc + 4)) >> 2)[15:0]` (30_encoding.md R58). -/
def Asm.branchField (pc : Word) (label : Nat) : BitVec 16 :=
  BitVec.ofInt 16 (((label : Int) - (Asm.next pc : Int)) / 4)

/-- The instruction of `op rd, rs, rt`, its `shamt` field zero (30_encoding.md R58). -/
def RegOp.instr (op : RegOp) (rd rs rt : BitVec 5) : Instr :=
  match op with
  | .add  => .add rs rt rd 0#5
  | .addu => .addu rs rt rd 0#5
  | .sub  => .sub rs rt rd 0#5
  | .subu => .subu rs rt rd 0#5
  | .and  => .and rs rt rd 0#5
  | .or   => .or rs rt rd 0#5
  | .xor  => .xor rs rt rd 0#5
  | .slt  => .slt rs rt rd 0#5

/-- The instruction of `op rt, rs, imm` (30_encoding.md R58). -/
def ImmOp.instr (op : ImmOp) (rt rs : BitVec 5) (imm : BitVec 16) : Instr :=
  match op with
  | .addi  => .addi rs rt imm
  | .addiu => .addiu rs rt imm
  | .slti  => .slti rs rt imm

/-- The instruction an assembler line at address `pc` stands for, ignored fields zero (30_encoding.md R58, R59). -/
def Asm.instr (pc : Word) : Asm → Instr
  | .sll rd rt shamt    => .sll 0#5 (.ofNat 5 rt) (.ofNat 5 rd) (.ofNat 5 shamt)
  | .reg op rd rs rt    => op.instr (.ofNat 5 rd) (.ofNat 5 rs) (.ofNat 5 rt)
  | .j target           => .j (.ofNat 26 (target / 4))
  | .beq rs rt label    => .beq (.ofNat 5 rs) (.ofNat 5 rt) (Asm.branchField pc label)
  | .bne rs rt label    => .bne (.ofNat 5 rs) (.ofNat 5 rt) (Asm.branchField pc label)
  | .imm op rt rs v     => op.instr (.ofNat 5 rt) (.ofNat 5 rs) (.ofInt 16 v)
  | .lui rt v           => .lui 0#5 (.ofNat 5 rt) (.ofNat 16 v)
  | .lw rt offset rs    => .lw (.ofNat 5 rs) (.ofNat 5 rt) (.ofInt 16 offset)
  | .sw rt offset rs    => .sw (.ofNat 5 rs) (.ofNat 5 rt) (.ofInt 16 offset)
  | .nop                => .sll 0#5 0#5 0#5 0#5

/-- The word of an assembler line at address `pc`, none where the line is not well formed there (30_encoding.md R58). -/
def Asm.assemble (pc : Word) (a : Asm) : Option Word :=
  if a.wellFormed pc then some (encode (a.instr pc)) else none

end Sys2Proof
end

