-- ==== Sys2Proof/Machine/Launch.lean ====
section
/-! DEFINITION. The values State.reset takes: the reset values the spec gives (10_state.md R24) and, for the parameters
the spec leaves OPEN, the ones the log names (log 2, log 3, log 6). -/

namespace Sys2Proof.Machine

/-- `RESET_PC`, the address of the first instruction (10_state.md R24, 70_reset_and_hazards.md R210). -/
def resetPc : Word := 0x00000000#32

/-- The reset value of every register that holds storage (10_state.md R24; log 5). -/
def resetRegister : Word := 0x00000000#32

/-- `DMEM_WORDS` at reset. DESIGN CHOICE, unsafe (log 2): the spec leaves it OPEN and its own vectors assume 1024. -/
def resetDmemWords : Nat := 1024

/-- `DMEM_INIT` at reset as (word index, word) pairs: the spec's default, every word 0 (00_scope.md R3; log 6). -/
def resetDmem : List (Nat × Word) := []

/-- `IMEM_IMAGE` at reset. DESIGN CHOICE (log 3): no program is loaded; the load is the host's (70_reset_and_hazards.md
R212). -/
def resetImem : List Word := []

end Sys2Proof.Machine
end

