-- ==== Sys2Proof/Machine/State.lean ====
section
/-! DEFINITION. The state of the machine as plain data (10_state.md R10), the reasons a step stops (60_exceptions.md R190),
and the state after reset (10_state.md R24, 70_reset_and_hazards.md R210). -/

namespace Sys2Proof.Machine

/-- Data memory as (word index, word) pairs, the indices strictly rising and no word 0: an index that is not listed
reads as 0 (`Memory.read`, log 6). A memory is an array of words and has no byte view (20_memory.md R32, log 7). -/
abbrev Memory := List (Nat × Word)

/-- Whether a data access that stopped the machine was a load or a store (60_exceptions.md R190). -/
inductive AccessKind where
  | read
  | write
  deriving DecidableEq, Repr

/-- Why the machine stops with nothing committed, and what is recorded (60_exceptions.md R190 table). -/
inductive Fault where
  /-- Raised by the fetch when the word at `pc` is none of the eighteen instructions (60_exceptions.md R191). The
  hardware's own error, safe: the spec says that the machine halts. -/
  | decodeFailure (pc instr : Word)
  /-- Raised by the fetch when `pc` is outside instruction memory (60_exceptions.md R194). Safe: the source leaves the
  access undefined and the spec stops. -/
  | fetchOutOfRange (pc : Word)
  /-- Raised by lw and sw when the address is outside data memory (60_exceptions.md R193). Safe: the source leaves the
  access undefined and the spec stops. -/
  | dataAccessOutOfRange (pc address : Word) (kind : AccessKind)
  deriving DecidableEq, Repr

/-- Why a step has no meaning. -/
inductive Refusal where
  /-- Raised by an arm of `exec` for an instruction that has no meaning yet. Safe; no arm of this model raises it. -/
  | notModelled (mnemonic : String)
  /-- Raised by a step whose `pc` is not a multiple of 4: only a launch state can have one, and "the model refuses it"
  (10_state.md R17, 92_eei_decisions.md D16). Safe. -/
  | launchPcMisaligned
  deriving DecidableEq, Repr

/-- The state: the triple (x, pc, DMem) of 10_state.md R10 and, beside it, the parameters of the run, which no step
changes (log 1). -/
structure State where
  /-- x[1] to x[31], at positions 0 to 30; x[0] holds no storage (10_state.md R11). -/
  regs : Vector Word 31
  /-- The program counter, a byte address (10_state.md R15). -/
  pc : Word
  /-- Data memory (10_state.md R22). -/
  dmem : Memory
  /-- `DMEM_WORDS`, the number of words of data memory (00_scope.md R3). -/
  dmemWords : Nat
  /-- Instruction memory, read only: word `i` of the image is element `i`, and `IMEM_WORDS` is the list's length
  (10_state.md R21). -/
  imem : List Word
  deriving DecidableEq, Repr

/-- The launch state for an instruction image, a data memory size and initial data (70_reset_and_hazards.md R210). -/
def State.launch (image : List Word) (dmemWords : Nat) (dmemInit : Memory) : State where
  regs := Vector.replicate 31 resetRegister
  pc := resetPc
  dmem := dmemInit
  dmemWords := dmemWords
  imem := image

/-- The machine right after reset, no program loaded yet (10_state.md R24; log 2, log 3, log 6). -/
def State.reset : State := State.launch resetImem resetDmemWords resetDmem

end Sys2Proof.Machine
end

