-- ==== Sys2Proof/Machine/Ops.lean ====
section
/-! DEFINITION. The named operations over registers, memories and the program counter, and the ways an instruction ends.
This hardware has no trap entry and no return from one (60_exceptions.md R197, R198): what takes the place of taking an
exception is the one operation `stopDataAccess`, which commits nothing. -/

namespace Sys2Proof.Machine

/-! ### Registers -/

/-- The position of register `i` in the stored registers (10_state.md R11). -/
def regSlot (i : RegIdx) : Nat := i.toNat - 1

theorem regSlot_lt (i : RegIdx) : regSlot i < 31 := by
  have := i.isLt
  simp only [regSlot]
  omega

/-- `x[i]`: register 0 always reads 0 (10_state.md R11). -/
def State.x (s : State) (i : RegIdx) : Word :=
  if i = 0#5 then 0#32 else s.regs[regSlot i]'(regSlot_lt i)

/-- `x[i] <- v`: a write to register 0 is discarded (10_state.md R12). -/
def State.writeReg (s : State) (i : RegIdx) (v : Word) : State :=
  if i = 0#5 then s else { s with regs := s.regs.set (regSlot i) v (regSlot_lt i) }

/-! ### The program counter -/

/-- `pc <- t` (00_scope.md R4). -/
def State.setPc (s : State) (t : Word) : State := { s with pc := t }

/-- The sequential successor `pc + 4` of an address; it wraps at the top (10_state.md R16). -/
def sequential (pc : Word) : Word := pc + 4#32

/-- The address is a multiple of 4 (10_state.md R17). -/
def aligned (a : Word) : Bool := a.extractLsb' 0 2 == 0#2

/-! ### Memories -/

/-- The word index of a byte address: unsigned, the two low bits dropped (20_memory.md R31). -/
def wordIndex (a : Word) : Nat := (a >>> 2).toNat

/-- Word `i` of a memory; an index that is not listed reads as 0, the default of `DMEM_INIT` (00_scope.md R3; log 6). -/
def Memory.read : Memory → Nat → Word
  | [], _ => 0#32
  | (j, v) :: m, i => if i = j then v else Memory.read m i

/-- The memory without a listed word at index `i`. -/
def Memory.erase (m : Memory) (i : Nat) : Memory := m.filter (fun c => c.1 != i)

/-- The memory with `(i, v)` listed before the first greater index. -/
def Memory.insert : Memory → Nat → Word → Memory
  | [], i, v => [(i, v)]
  | (j, u) :: m, i, v => if i < j then (i, v) :: (j, u) :: m else (j, u) :: Memory.insert m i v

/-- `DMem[i] <- v`: exactly the addressed word changes (20_memory.md R35), and the canonical form is kept. -/
def Memory.write (m : Memory) (i : Nat) (v : Word) : Memory :=
  if v = 0#32 then Memory.erase m i else Memory.insert (Memory.erase m i) i v

/-- The canonical form: indices strictly rising, no word equal to what an unlisted index reads as. -/
abbrev Memory.wf (m : Memory) : Prop :=
  m.Pairwise (fun a b => a.1 < b.1) ∧ ∀ c ∈ m, c.2 ≠ 0#32

/-- `Fetch(pc)`: the word of instruction memory at `pc`, none outside it (00_scope.md R4). -/
def State.fetch (s : State) : Option Word := s.imem[wordIndex s.pc]?

/-- `MemRead(addr, 4)`: the data word at a byte address, none outside data memory (00_scope.md R4). -/
def State.loadWord (s : State) (addr : Word) : Option Word :=
  if wordIndex addr < s.dmemWords then some (Memory.read s.dmem (wordIndex addr)) else none

/-- `MemWrite(addr, 4, v)`: the state with the data word replaced, none outside data memory (00_scope.md R4). -/
def State.storeWord (s : State) (addr v : Word) : Option State :=
  if wordIndex addr < s.dmemWords then some { s with dmem := Memory.write s.dmem (wordIndex addr) v } else none

/-- An instruction image with the word at `i` replaced; an image that ends before `i` is filled up with words 0
(log 3). -/
def placeWord : List Word → Nat → Word → List Word
  | [], 0, w => [w]
  | [], i + 1, w => 0#32 :: placeWord [] i w
  | _ :: l, 0, w => w :: l
  | a :: l, i + 1, w => a :: placeWord l i w

/-! ### How an instruction ends -/

/-- The result of one instruction. -/
abbrev Result := Host.Outcome State Fault Refusal

/-- Write one register and go on at `pc + 4` (42_rformat.md R140, 44_immediate.md R170). -/
def writeAndAdvance (s : State) (dest : RegIdx) (v : Word) : Result :=
  .next ((s.writeReg dest v).setPc (sequential s.pc))

/-- Go on at an address, nothing else changed (43_jump_branch.md R160). -/
def transferTo (s : State) (target : Word) : Result := .next (s.setPc target)

/-- Stop at a data access outside data memory: nothing is committed, and the record holds `pc`, the address and the kind
of the access (60_exceptions.md R190, R193). -/
def stopDataAccess (s : State) (addr : Word) (kind : AccessKind) : Result :=
  .fault (.dataAccessOutOfRange s.pc addr kind)

/-- Load the word at an address into a register and go on at `pc + 4`; the access is made whatever the register
(45_load_store.md R180). -/
def loadAndAdvance (s : State) (dest : RegIdx) (addr : Word) : Result :=
  match s.loadWord addr with
  | some v => writeAndAdvance s dest v
  | none => stopDataAccess s addr .read

/-- Store a word at an address and go on at `pc + 4` (45_load_store.md R181). -/
def storeAndAdvance (s : State) (addr v : Word) : Result :=
  match s.storeWord addr v with
  | some t => transferTo t (sequential s.pc)
  | none => stopDataAccess s addr .write

end Sys2Proof.Machine
end

