-- ==== Sys2Proof/Machine/Operands.lean ====
section
/-! DEFINITION. The five ways instruction bits become an operand (30_encoding.md R53), and the one addressing mode
(45_load_store.md R182). -/

namespace Sys2Proof.Machine

/-- Arithmetic immediate: `sext_32(imm16)`, for addi and addiu alike (30_encoding.md R53). -/
def arithmeticImmediate (imm : BitVec 16) : Word := sext32 imm

/-- Upper immediate: `imm16 << 16` (30_encoding.md R53). -/
def upperImmediate (imm : BitVec 16) : Word := imm.setWidth 32 <<< 16

/-- Branch offset: `imm32 << 2`, a signed count of words as bytes (30_encoding.md R53). -/
def branchOffset (imm : BitVec 16) : Word := sext32 imm <<< 2

/-- Branch target: `pc + 4 + (imm32 << 2)` (41_datapath.md R123). -/
def branchTarget (pc : Word) (imm : BitVec 16) : Word := sequential pc + branchOffset imm

/-- Jump target: the upper four bits of `pc + 4`, then the address field times 4 (41_datapath.md R122). -/
def jumpTarget (pc : Word) (address : BitVec 26) : Word :=
  (sequential pc &&& 0xF0000000#32) ||| ((address.setWidth 32 <<< 2) &&& 0x0FFFFFFF#32)

/-- Shift amount: `zext_32(shamt)`, 0 to 31 (30_encoding.md R53). -/
def shiftAmount (shamt : BitVec 5) : Word := shamt.setWidth 32

/-- Effective address: base plus sign-extended displacement, wrapping (45_load_store.md R182). -/
def effectiveAddress (base : Word) (imm : BitVec 16) : Word := base + sext32 imm

end Sys2Proof.Machine
end

