-- ==== Sys2Proof/Machine/Immediate.lean ====
section
/-! DEFINITION. The four register-immediate instructions (44_immediate.md). Each writes x[rt], discarded when rt = 0, and
goes on at `pc + 4` (44_immediate.md R170). -/

namespace Sys2Proof.Machine

/-- addi rt, rs, imm: sign-extended immediate, no overflow trap (44_immediate.md R171). -/
def execAddi (rs rt : RegIdx) (imm : BitVec 16) (s : State) : Result :=
  writeAndAdvance s rt (s.x rs + arithmeticImmediate imm)

/-- addiu rt, rs, imm: identical to addi, its immediate sign-extended too (44_immediate.md R172). -/
def execAddiu (rs rt : RegIdx) (imm : BitVec 16) (s : State) : Result :=
  writeAndAdvance s rt (s.x rs + arithmeticImmediate imm)

/-- slti rt, rs, imm: signed on both sides (44_immediate.md R173). -/
def execSlti (rs rt : RegIdx) (imm : BitVec 16) (s : State) : Result :=
  writeAndAdvance s rt (setLessThan (s.x rs) (arithmeticImmediate imm))

/-- lui rt, imm: the immediate in the upper half, the lower half zero; rs is ignored (44_immediate.md R174). -/
def execLui (rt : RegIdx) (imm : BitVec 16) (s : State) : Result :=
  writeAndAdvance s rt (upperImmediate imm)

end Sys2Proof.Machine
end

