-- ==== Sys2Proof/Machine/LoadStore.lean ====
section
/-! DEFINITION. The load and the store of one word (45_load_store.md). The base register is never modified, no alignment is
checked, and an address outside data memory stops the machine with nothing committed (45_load_store.md R182). -/

namespace Sys2Proof.Machine

/-- lw rt, offset(rs): the read is made even when rt = 0 (45_load_store.md R180). -/
def execLw (rs rt : RegIdx) (imm : BitVec 16) (s : State) : Result :=
  loadAndAdvance s rt (effectiveAddress (s.x rs) imm)

/-- sw rt, offset(rs): all 32 bits of x[rt] are stored (45_load_store.md R181). -/
def execSw (rs rt : RegIdx) (imm : BitVec 16) (s : State) : Result :=
  storeAndAdvance s (effectiveAddress (s.x rs) imm) (s.x rt)

end Sys2Proof.Machine
end

