-- ==== Sys2Proof/Machine/RFormat.lean ====
section
/-! DEFINITION. The nine register-format instructions (42_rformat.md). Each writes x[rd], discarded when rd = 0, and goes on
at `pc + 4`; none traps, none touches data memory (42_rformat.md R140). -/

namespace Sys2Proof.Machine

/-- sll rd, rt, shamt: `x[rd] <- x[rt] << shamt` (42_rformat.md R141). -/
def execSll (rt rd : RegIdx) (shamt : BitVec 5) (s : State) : Result :=
  writeAndAdvance s rd (s.x rt <<< shamt.toNat)

/-- add rd, rs, rt: `x[rd] <- x[rs] + x[rt]`, no overflow trap (42_rformat.md R142). -/
def execAdd (rs rt rd : RegIdx) (s : State) : Result :=
  writeAndAdvance s rd (s.x rs + s.x rt)

/-- addu rd, rs, rt: identical to add for every operand pair (42_rformat.md R143). -/
def execAddu (rs rt rd : RegIdx) (s : State) : Result :=
  writeAndAdvance s rd (s.x rs + s.x rt)

/-- sub rd, rs, rt: the negated second operand is added (42_rformat.md R144). -/
def execSub (rs rt rd : RegIdx) (s : State) : Result :=
  writeAndAdvance s rd (s.x rs + (0#32 - s.x rt))

/-- subu rd, rs, rt: `x[rd] <- x[rs] - x[rt]` (42_rformat.md R145). -/
def execSubu (rs rt rd : RegIdx) (s : State) : Result :=
  writeAndAdvance s rd (s.x rs - s.x rt)

/-- and rd, rs, rt (42_rformat.md R146). -/
def execAnd (rs rt rd : RegIdx) (s : State) : Result :=
  writeAndAdvance s rd (s.x rs &&& s.x rt)

/-- or rd, rs, rt (42_rformat.md R147). -/
def execOr (rs rt rd : RegIdx) (s : State) : Result :=
  writeAndAdvance s rd (s.x rs ||| s.x rt)

/-- xor rd, rs, rt (42_rformat.md R148). -/
def execXor (rs rt rd : RegIdx) (s : State) : Result :=
  writeAndAdvance s rd (s.x rs ^^^ s.x rt)

/-- slt rd, rs, rt: the operands before negation, compared as signed numbers (42_rformat.md R149). -/
def execSlt (rs rt rd : RegIdx) (s : State) : Result :=
  writeAndAdvance s rd (setLessThan (s.x rs) (s.x rt))

end Sys2Proof.Machine
end

