-- ==== Sys2Proof/Machine/Transfer.lean ====
section
/-! DEFINITION. The jump and the branches (43_jump_branch.md): the program counter is the only state they change, and they
have no delay slot (43_jump_branch.md R160, R163). -/

namespace Sys2Proof.Machine

/-- j target (43_jump_branch.md R161). -/
def execJ (address : BitVec 26) (s : State) : Result :=
  transferTo s (jumpTarget s.pc address)

/-- beq rs, rt, label: taken when the registers are equal (43_jump_branch.md R162). -/
def execBeq (rs rt : RegIdx) (imm : BitVec 16) (s : State) : Result :=
  transferTo s (if s.x rs = s.x rt then branchTarget s.pc imm else sequential s.pc)

/-- bne rs, rt, label: taken when the registers differ (43_jump_branch.md R164). -/
def execBne (rs rt : RegIdx) (imm : BitVec 16) (s : State) : Result :=
  transferTo s (if s.x rs ≠ s.x rt then branchTarget s.pc imm else sequential s.pc)

end Sys2Proof.Machine
end

