-- ==== Sys2Proof/Machine/Fetch.lean ====
section
/-! DEFINITION. What stands at the program counter: an instruction, or the reason the step stops before any instruction runs
(60_exceptions.md R196: fetch, then decode). -/

namespace Sys2Proof.Machine

/-- What the fetch and the decoder find at the program counter. -/
inductive Fetched where
  | instr (i : Instr)
  | fault (r : Fault)
  | refused (r : Refusal)
  deriving DecidableEq, Repr

/-- What a fetched word is: an instruction, or a Decode Failure recorded with `pc` and the word (60_exceptions.md R190,
R191). -/
def decodeAt (pc w : Word) : Fetched :=
  match decode w with
  | .ok i => .instr i
  | .error _ => .fault (.decodeFailure pc w)

/-- The instruction at the program counter. A misaligned `pc` is refused (10_state.md R17), one outside instruction
memory is a fault before any decode (60_exceptions.md R194, R196). -/
def fetchDecode (s : State) : Fetched :=
  if aligned s.pc then
    match s.fetch with
    | none => .fault (.fetchOutOfRange s.pc)
    | some w => decodeAt s.pc w
  else .refused .launchPcMisaligned

end Sys2Proof.Machine
end

