-- ==== Sys2Proof/Machine/Step.lean ====
section
/-! DEFINITION. One step: fetch, decode, and what the instruction does (41_datapath.md R130). Every instruction takes one
step and sets the program counter itself (70_reset_and_hazards.md R219, 10_state.md R16). -/

namespace Sys2Proof.Machine

/-- One cycle of the machine. -/
def step (s : State) : Host.Outcome State Fault Refusal :=
  match fetchDecode s with
  | .instr i => exec i s
  | .fault r => .fault r
  | .refused r => .refused r

/-- The state with an instruction's word placed where the next step fetches: the host's load of a program word
(70_reset_and_hazards.md R212; log 3). -/
def State.withFetchWord (s : State) (nbits w : Nat) : State :=
  { s with imem := placeWord s.imem (wordIndex s.pc) (tableWord nbits w) }

end Sys2Proof.Machine
end

