-- ==== Sys2Proof/Machine/Run.lean ====
section
/-! DEFINITION. A run as the host makes it (70_reset_and_hazards.md R213 to R216): the machine with its fault mark
(60_exceptions.md R191), clocked one cycle at a time until a fault, END_PC or the end of the cycle budget. -/

namespace Sys2Proof.Machine

/-- The cause code of a fault (60_exceptions.md R190 table). -/
def Fault.code : Fault → Nat
  | .decodeFailure .. => 1
  | .fetchOutOfRange .. => 2
  | .dataAccessOutOfRange .. => 3

/-- A machine in a run: its state and the fault mark, which the hardware does not hold (10_state.md R10). -/
structure Run where
  state : State
  mark : Option Fault
  deriving DecidableEq, Repr

/-- A run at its launch: no fault recorded (70_reset_and_hazards.md R210). -/
def startRun (s : State) : Run := ⟨s, none⟩

/-- One clock of a machine in a run. A fault sets the mark and leaves the state as it was; a marked machine takes no
further cycle (60_exceptions.md R191). A launch state the model refuses takes no cycle either (10_state.md R17). -/
def clock (r : Run) : Run :=
  match r.mark with
  | some _ => r
  | none =>
    match step r.state with
    | .next t => ⟨t, none⟩
    | .fault f => ⟨r.state, some f⟩
    | .refused _ => r

/-- How a run stands (70_reset_and_hazards.md R215): it goes on, has ended at END_PC, or has stopped with a fault. -/
inductive RunStatus where
  | running
  | ended
  | faulted (f : Fault)
  deriving DecidableEq, Repr

/-- The run is over, normally, at the start of the first cycle in which `pc = END_PC`; without an END_PC there is no
normal end (70_reset_and_hazards.md R216). -/
def runStatus (endPc : Option Word) (r : Run) : RunStatus :=
  match r.mark with
  | some f => .faulted f
  | none => if endPc = some r.state.pc then .ended else .running

/-- The host's loop for a budget of cycles: the instruction at END_PC is not executed (70_reset_and_hazards.md R216). -/
def drive (endPc : Option Word) : Nat → Run → Run
  | 0, r => r
  | n + 1, r => if runStatus endPc r = .running then drive endPc n (clock r) else r

/-- The state after a step that gives one. -/
def nextState? (r : Result) : Option State :=
  match r with
  | .next t => some t
  | .fault _ => none
  | .refused _ => none

/-- The fault of a step that stops with one. -/
def faultOf? (r : Result) : Option Fault :=
  match r with
  | .next _ => none
  | .fault f => some f
  | .refused _ => none

end Sys2Proof.Machine
end

