-- ==== Sys2Proof/Machine/Control.lean ====
section
/-! DEFINITION. The Control Unit (40_decoder.md): the thirteen control signals, the control table, the two-level lookup, and
the same contents as packed ROM words. A description of its own beside Decode.lean: that the two agree is a statement. -/

namespace Sys2Proof.Machine

/-! ### The control signals -/

/-- The ALU operation: the six names of 40_decoder.md R77 and its two codes that no instruction produces. -/
inductive AluOp where
  | and
  | or
  | add
  | slt
  | xor
  | shift
  | code6
  | code7
  deriving DecidableEq, Repr

/-- The 3-bit code of an ALU operation (40_decoder.md R77, decision D2). -/
def AluOp.code : AluOp → BitVec 3
  | .and => 0#3
  | .or => 1#3
  | .add => 2#3
  | .slt => 3#3
  | .xor => 4#3
  | .shift => 5#3
  | .code6 => 6#3
  | .code7 => 7#3

/-- The Control Signal Vector (40_decoder.md R74), every signal 0 unless said otherwise. -/
structure Ctrl where
  aluSrc   : Bool := false
  aluOp    : AluOp := .and
  negate   : Bool := false
  memRead  : Bool := false
  memWrite : Bool := false
  memToReg : Bool := false
  regDst   : Bool := false
  regWrite : Bool := false
  branch   : Bool := false
  jump     : Bool := false
  notEqual : Bool := false
  upperImm : Bool := false
  extra3   : Bool := false
  deriving DecidableEq, Repr

/-- The inert vector, every signal 0, which a Decode Failure carries (40_decoder.md R73). -/
def Ctrl.inert : Ctrl := {}

/-! ### The control table (40_decoder.md R75), its dashes 0 (40_decoder.md R76) -/

/-- The row of sll. -/
def ctrlShift : Ctrl := { aluOp := .shift, regDst := true, regWrite := true }

/-- The row of add and addu. -/
def ctrlAdd : Ctrl := { aluOp := .add, regDst := true, regWrite := true }

/-- The row of sub and subu. -/
def ctrlSub : Ctrl := { aluOp := .add, negate := true, regDst := true, regWrite := true }

/-- The row of and. -/
def ctrlAnd : Ctrl := { aluOp := .and, regDst := true, regWrite := true }

/-- The row of or. -/
def ctrlOr : Ctrl := { aluOp := .or, regDst := true, regWrite := true }

/-- The row of xor. -/
def ctrlXor : Ctrl := { aluOp := .xor, regDst := true, regWrite := true }

/-- The row of slt. -/
def ctrlSlt : Ctrl := { aluOp := .slt, negate := true, regDst := true, regWrite := true }

/-- The row of j. -/
def ctrlJump : Ctrl := { jump := true }

/-- The row of beq. -/
def ctrlBeq : Ctrl := { aluOp := .add, negate := true, branch := true }

/-- The row of bne. -/
def ctrlBne : Ctrl := { aluOp := .add, negate := true, branch := true, notEqual := true }

/-- The row of addi and addiu. -/
def ctrlAddImm : Ctrl := { aluSrc := true, aluOp := .add, regWrite := true }

/-- The row of slti. -/
def ctrlSltImm : Ctrl := { aluSrc := true, aluOp := .slt, negate := true, regWrite := true }

/-- The row of lui. -/
def ctrlLui : Ctrl := { aluSrc := true, aluOp := .add, regWrite := true, upperImm := true }

/-- The row of lw. -/
def ctrlLoad : Ctrl := { aluSrc := true, aluOp := .add, memRead := true, memToReg := true, regWrite := true }

/-- The row of sw. -/
def ctrlStore : Ctrl := { aluSrc := true, aluOp := .add, memWrite := true }

/-- `FUNCT_ROM`: the row of a function code (40_decoder.md R72, 30_encoding.md R56). -/
def functRow (fn : BitVec 6) : Option Ctrl :=
  match fn with
  | 0x00#6 => some ctrlShift
  | 0x20#6 => some ctrlAdd
  | 0x21#6 => some ctrlAdd
  | 0x22#6 => some ctrlSub
  | 0x23#6 => some ctrlSub
  | 0x24#6 => some ctrlAnd
  | 0x25#6 => some ctrlOr
  | 0x26#6 => some ctrlXor
  | 0x2A#6 => some ctrlSlt
  | _ => none

/-- `MAIN_ROM`: the row of an opcode that is not 0 (40_decoder.md R72, 30_encoding.md R55). -/
def mainRow (op : BitVec 6) : Option Ctrl :=
  match op with
  | 0x02#6 => some ctrlJump
  | 0x04#6 => some ctrlBeq
  | 0x05#6 => some ctrlBne
  | 0x08#6 => some ctrlAddImm
  | 0x09#6 => some ctrlAddImm
  | 0x0A#6 => some ctrlSltImm
  | 0x0F#6 => some ctrlLui
  | 0x23#6 => some ctrlLoad
  | 0x2B#6 => some ctrlStore
  | _ => none

/-- The Control Unit: a control vector and `decode_ok`, from `opcode` and, when that is 0, `funct` (40_decoder.md R72). -/
def controlUnit (f : Fields) : Ctrl × Bool :=
  match (if f.opcode = 0#6 then functRow f.funct else mainRow f.opcode) with
  | some ctl => (ctl, true)
  | none => (Ctrl.inert, false)

/-- The row of the control table an instruction belongs to (40_decoder.md R75, R84). -/
def controlRow : Instr → Ctrl
  | .sll .. => ctrlShift
  | .add .. => ctrlAdd
  | .addu .. => ctrlAdd
  | .sub .. => ctrlSub
  | .subu .. => ctrlSub
  | .and .. => ctrlAnd
  | .or .. => ctrlOr
  | .xor .. => ctrlXor
  | .slt .. => ctrlSlt
  | .j .. => ctrlJump
  | .beq .. => ctrlBeq
  | .bne .. => ctrlBne
  | .addi .. => ctrlAddImm
  | .addiu .. => ctrlAddImm
  | .slti .. => ctrlSltImm
  | .lui .. => ctrlLui
  | .lw .. => ctrlLoad
  | .sw .. => ctrlStore

/-! ### The packed ROM (40_decoder.md R78, R79, decision D4) -/

/-- `ctrl[14:0]`, the signals in the order of the table's columns from the most significant bit (40_decoder.md R78). -/
def Ctrl.pack (c : Ctrl) : BitVec 15 :=
  BitVec.ofBool c.aluSrc ++ c.aluOp.code ++ BitVec.ofBool c.negate ++ BitVec.ofBool c.memRead ++ BitVec.ofBool c.memWrite ++
    BitVec.ofBool c.memToReg ++ BitVec.ofBool c.regDst ++ BitVec.ofBool c.regWrite ++ BitVec.ofBool c.branch ++ BitVec.ofBool c.jump ++
    BitVec.ofBool c.notEqual ++ BitVec.ofBool c.upperImm ++ BitVec.ofBool c.extra3

/-- An entry of a ROM: a valid bit and a packed control word (40_decoder.md R79). -/
structure RomEntry where
  valid : Bool
  ctrl  : BitVec 15
  deriving DecidableEq, Repr

/-- A supported entry. -/
def romWord (ctrl : BitVec 15) : RomEntry := ⟨true, ctrl⟩

/-- An unsupported entry: its control word is 0x0000 (40_decoder.md R79). -/
def romEmpty : RomEntry := ⟨false, 0x0000#15⟩

/-- Eight unsupported entries, a row of the grids of 30_encoding.md R57. -/
def romEmptyRow : List RomEntry := List.replicate 8 romEmpty

/-- `FUNCT_ROM` as 64 entries, eight to a line (40_decoder.md R78, R79). -/
def functRom : List RomEntry :=
  [romWord 0x2860#15, romEmpty, romEmpty, romEmpty, romEmpty, romEmpty, romEmpty, romEmpty] ++
  romEmptyRow ++ romEmptyRow ++ romEmptyRow ++
  [romWord 0x1060#15, romWord 0x1060#15, romWord 0x1460#15, romWord 0x1460#15,
   romWord 0x0060#15, romWord 0x0860#15, romWord 0x2060#15, romEmpty] ++
  [romEmpty, romEmpty, romWord 0x1C60#15, romEmpty, romEmpty, romEmpty, romEmpty, romEmpty] ++
  romEmptyRow ++ romEmptyRow

/-- `MAIN_ROM` as 64 entries, eight to a line; entry 0 is never selected (40_decoder.md R78, R79). -/
def mainRom : List RomEntry :=
  [romEmpty, romEmpty, romWord 0x0008#15, romEmpty, romWord 0x1410#15, romWord 0x1414#15, romEmpty, romEmpty] ++
  [romWord 0x5020#15, romWord 0x5020#15, romWord 0x5C20#15, romEmpty, romEmpty, romEmpty, romEmpty,
   romWord 0x5022#15] ++
  romEmptyRow ++ romEmptyRow ++
  [romEmpty, romEmpty, romEmpty, romWord 0x52A0#15, romEmpty, romEmpty, romEmpty, romEmpty] ++
  [romEmpty, romEmpty, romEmpty, romWord 0x5100#15, romEmpty, romEmpty, romEmpty, romEmpty] ++
  romEmptyRow ++ romEmptyRow

/-- The selected ROM entry: `FUNCT_ROM` when the opcode is 0, else `MAIN_ROM` (40_decoder.md R79). -/
def romOutput (f : Fields) : RomEntry :=
  if f.opcode = 0#6 then functRom.getD f.funct.toNat romEmpty else mainRom.getD f.opcode.toNat romEmpty

end Sys2Proof.Machine
end

