-- ==== Sys2Proof/Machine/Datapath.lean ====
section
/-! DEFINITION. The datapath units (41_datapath.md), each for every control vector, the ones no instruction has among them,
and their composition into the cycle (41_datapath.md R130). A second description of the machine, driven by the control vector
alone: that it agrees with the instructions' meanings is a statement. -/

namespace Sys2Proof.Machine

/-! ### ALU Input Selectors -/

/-- First-operand selector: load-upper-immediate is tested first (41_datapath.md R100, R102). -/
def selectA (ctl : Ctrl) (rsVal rtVal : Word) : Word :=
  if ctl.upperImm then 0x00000000#32
  else if ctl.aluOp = .shift then rtVal
  else rsVal

/-- Second-operand selector: the shift is tested first (41_datapath.md R101, R102). -/
def selectB (ctl : Ctrl) (f : Fields) (rtVal : Word) : Word :=
  if ctl.aluOp = .shift then shiftAmount f.shamt
  else if ctl.upperImm then upperImmediate f.imm16
  else if ctl.aluSrc then f.imm32
  else rtVal

/-! ### Arithmetic/Logic Unit -/

/-- The second operand after negation, `(0 - alu_b) mod 2^32` when `negate` is set (41_datapath.md R103, R108). -/
def negated (ctl : Ctrl) (b : Word) : Word := if ctl.negate then 0#32 - b else b

/-- The result word: set-less-than and shift take the operand before negation, the rest after it; an unrecognised code
gives 0 (41_datapath.md R104, R106, decision D18). -/
def aluResult (ctl : Ctrl) (a b : Word) : Word :=
  match ctl.aluOp with
  | .and => a &&& negated ctl b
  | .or => a ||| negated ctl b
  | .add => a + negated ctl b
  | .slt => setLessThan a b
  | .xor => a ^^^ negated ctl b
  | .shift => a <<< (b &&& 0x1F#32).toNat
  | .code6 => 0x00000000#32
  | .code7 => 0x00000000#32

/-! ### Memory Stage -/

/-- The Memory Access Result: the word read when `memRead` is set, else the placeholder 0; none outside data memory
(41_datapath.md R110). -/
def memoryRead (ctl : Ctrl) (s : State) (addr : Word) : Option Word :=
  if ctl.memRead then s.loadWord addr else some 0x00000000#32

/-- Data memory after the stage: the `rt` value stored when `memWrite` is set; none outside data memory
(41_datapath.md R111). -/
def memoryWrite (ctl : Ctrl) (s : State) (addr rtVal : Word) : Option State :=
  if ctl.memWrite then s.storeWord addr rtVal else some s

/-- The Memory Stage: the read first, the write second, at one index (41_datapath.md R112, decision D17); the kind of the
access that is outside data memory where there is one. -/
def memoryStage (ctl : Ctrl) (s : State) (addr rtVal : Word) : Except AccessKind (Word × State) :=
  match memoryRead ctl s addr, memoryWrite ctl s addr rtVal with
  | none, _ => .error .read
  | some _, none => .error .write
  | some v, some t => .ok (v, t)

/-! ### Next-PC Unit -/

/-- The branch decision (41_datapath.md R121). -/
def branchTaken (ctl : Ctrl) (zero : Bool) : Bool := if ctl.notEqual then !zero else zero

/-- The Next-PC Unit: jump, else taken branch, else the next instruction (41_datapath.md R120). -/
def nextPc (ctl : Ctrl) (f : Fields) (zero : Bool) (pc : Word) : Word :=
  if ctl.jump then jumpTarget pc f.address
  else if ctl.branch && branchTaken ctl zero then sequential pc + (f.imm32 <<< 2)
  else sequential pc

/-! ### Write-Back Unit -/

/-- The destination index: `rd` when `regDst` is set, else `rt` (41_datapath.md R125). -/
def writeBackDest (ctl : Ctrl) (f : Fields) : RegIdx := if ctl.regDst then f.rd else f.rt

/-- The Write-Back Unit: a no-op unless `regWrite` is set and the destination is not register 0 (41_datapath.md R125). -/
def writeBack (ctl : Ctrl) (f : Fields) (alu mem : Word) (s : State) : State :=
  if ctl.regWrite then s.writeReg (writeBackDest ctl f) (if ctl.memToReg then mem else alu) else s

/-! ### The cycle -/

/-- Steps (d) to (i) of the cycle, for a control vector already produced (41_datapath.md R130): every register is read
before any is written. -/
def laterStages (ctl : Ctrl) (f : Fields) (s : State) : Result :=
  let rsVal := s.x f.rs
  let rtVal := s.x f.rt
  let alu := aluResult ctl (selectA ctl rsVal rtVal) (selectB ctl f rtVal)
  match memoryStage ctl s alu rtVal with
  | .error kind => stopDataAccess s alu kind
  | .ok (mem, t) => .next ((writeBack ctl f alu mem t).setPc (nextPc ctl f (zeroFlag alu) s.pc))

/-- Steps (b) to (i) of the cycle, for a fetched word (41_datapath.md R130): a Decode Failure ends it before anything
else happens (60_exceptions.md R191). -/
def cycleWord (s : State) (w : Word) : Result :=
  let f := fieldExtractor w
  match controlUnit f with
  | (_, false) => .fault (.decodeFailure s.pc w)
  | (ctl, true) => laterStages ctl f s

/-- The cycle of the driving loop (41_datapath.md R130). -/
def cycle (s : State) : Result :=
  match s.fetch with
  | none => .fault (.fetchOutOfRange s.pc)
  | some w => cycleWord s w

end Sys2Proof.Machine
end

