-- ==== Sys2Proof/Machine/Signals.lean ====
section
/-! DEFINITION. The block boundary: the outputs of a cycle for a fetched word (00_scope.md R5, names by decision D5). They are
values of one cycle, functions of the pre-cycle state and the word, and no state (10_state.md R23). -/

namespace Sys2Proof.Machine

/-- The outputs of the block in a cycle (00_scope.md R5). -/
structure Signals where
  decodeOk  : Bool
  dmemRe    : Bool
  dmemWe    : Bool
  dmemIndex : BitVec 30
  dmemWdata : Word
  memResult : Word
  nextPc    : Word
  rfWe      : Bool
  rfWaddr   : RegIdx
  rfWdata   : Word
  deriving DecidableEq, Repr

/-- The outputs for a fetched word `w` and the word `rdata` the data memory provider gives (`dmem_rdata`, an input); what
the provider gives at an index outside data memory is nothing of the block's. DESIGN CHOICE (log 16), where the spec gives
no value: with `rf_we` 0, `rf_waddr` and `rf_wdata` are the selected destination and value all the same; and in a cycle that
stops, with DataAccessOutOfRange or with a Decode Failure, every output is driven from the control vector as in a cycle that
commits, `rf_we` and `next_pc` among them. -/
def boundarySignals (s : State) (w rdata : Word) : Signals :=
  let f := fieldExtractor w
  let ctl := (controlUnit f).1
  let alu := aluResult ctl (selectA ctl (s.x f.rs) (s.x f.rt)) (selectB ctl f (s.x f.rt))
  let mem := if ctl.memRead then rdata else 0x00000000#32
  { decodeOk  := (controlUnit f).2
    dmemRe    := ctl.memRead
    dmemWe    := ctl.memWrite
    dmemIndex := alu.extractLsb' 2 30
    dmemWdata := s.x f.rt
    memResult := mem
    nextPc    := nextPc ctl f (zeroFlag alu) s.pc
    rfWe      := ctl.regWrite && writeBackDest ctl f != 0#5
    rfWaddr   := writeBackDest ctl f
    rfWdata   := if ctl.memToReg then mem else alu }

end Sys2Proof.Machine
end

