-- ==== Sys2Proof/Safety.lean ====
section
/-! DEFINITION. The terms claims use: what a step leaves unchanged, the shapes of a next state, the invariant of states a run
can reach, and a run without a fault. -/

namespace Sys2Proof.Machine

/-- Every register reads as before. -/
def SameRegs (s t : State) : Prop := ∀ r, t.x r = s.x r

/-- Every word of data memory reads as before, and there are as many. -/
def SameData (s t : State) : Prop :=
  t.dmemWords = s.dmemWords ∧ ∀ i, Memory.read t.dmem i = Memory.read s.dmem i

/-- Instruction memory is as before (20_memory.md R42). -/
def SameImem (s t : State) : Prop := t.imem = s.imem

/-- Data memory reads as before but for word `i`, which reads `v`. -/
def DataUpdated (s t : State) (i : Nat) (v : Word) : Prop :=
  t.dmemWords = s.dmemWords ∧ ∀ k, Memory.read t.dmem k = if k = i then v else Memory.read s.dmem k

/-- The result is a next state at `pc + 4` in which register `d` reads `v`, unless `d` is register 0, and nothing else has
changed: no other register, no word of either memory. -/
def WritesOnly (s : State) (o : Result) (d : RegIdx) (v : Word) : Prop :=
  ∃ t, o = .next t ∧ (∀ r, t.x r = if r = d ∧ d ≠ 0#5 then v else s.x r) ∧ t.pc.toNat = (s.pc.toNat + 4) % 2 ^ 32 ∧
    SameData s t ∧ SameImem s t

/-- The result is a next state at `target` in which nothing else has changed. -/
def TransfersTo (s : State) (o : Result) (target : Word) : Prop :=
  ∃ t, o = .next t ∧ t.pc = target ∧ SameRegs s t ∧ SameData s t ∧ SameImem s t

/-- The result is a next state at `pc + 4` in which word `i` of data memory reads `v` and nothing else has changed. -/
def StoresOnly (s : State) (o : Result) (i : Nat) (v : Word) : Prop :=
  ∃ t, o = .next t ∧ DataUpdated s t i v ∧ t.pc.toNat = (s.pc.toNat + 4) % 2 ^ 32 ∧ SameRegs s t ∧ SameImem s t

/-- The instruction reaches data memory: lw and sw, and no other (20_memory.md R33). -/
def reachesData : Instr → Bool
  | .lw .. | .sw .. => true
  | .sll .. | .add .. | .addu .. | .sub .. | .subu .. | .and .. | .or .. | .xor .. | .slt .. | .j .. | .beq .. | .bne ..
  | .addi .. | .addiu .. | .slti .. | .lui .. => false

/-- The registers an instruction may write: `rd` in the register format, `rt` in addi, addiu, slti, lui and lw, none
elsewhere (10_state.md R14). -/
def destination? : Instr → Option RegIdx
  | .sll _ _ rd _ | .add _ _ rd _ | .addu _ _ rd _ | .sub _ _ rd _ | .subu _ _ rd _ | .and _ _ rd _ | .or _ _ rd _
  | .xor _ _ rd _ | .slt _ _ rd _ => some rd
  | .addi _ rt _ | .addiu _ rt _ | .slti _ rt _ | .lui _ rt _ | .lw _ rt _ => some rt
  | .j .. | .beq .. | .bne .. | .sw .. => none

/-- The index of the data word an instruction stores to in a state, where it is a store (45_load_store.md R181). -/
def storedIndex? (i : Instr) (s : State) : Option Nat :=
  match i with
  | .sw rs _ imm => some (wordIndex (effectiveAddress (s.x rs) imm))
  | .sll .. | .add .. | .addu .. | .sub .. | .subu .. | .and .. | .or .. | .xor .. | .slt .. | .j .. | .beq .. | .bne ..
  | .addi .. | .addiu .. | .slti .. | .lui .. | .lw .. => none

/-- Some instructions, one after the other and none of them a store to data word `k`, lead from the first state to the
second (20_memory.md R39, 45_load_store.md R183). -/
inductive KeepsWord (k : Nat) (s : State) : State → Prop where
  | refl : KeepsWord k s s
  | tail {t u : State} (i : Instr) (before : KeepsWord k s t) (run : exec i t = .next u)
      (elsewhere : storedIndex? i t ≠ some k) : KeepsWord k s u

/-- The invariant of the states a run can reach: `pc` a multiple of 4 (10_state.md R17), data memory in its canonical form
with no word listed outside it, and both memories within the sizes of 00_scope.md R3. -/
structure Inv (s : State) : Prop where
  pcAligned : aligned s.pc = true
  canonical : Memory.wf s.dmem
  inside : ∀ c ∈ s.dmem, c.1 < s.dmemWords
  dataSize : 1 ≤ s.dmemWords ∧ s.dmemWords ≤ Config.maxMemoryWords
  imemSize : s.imem.length ≤ Config.maxMemoryWords

/-- A run that has recorded no fault: what a claim about a program's result takes or proves (60_exceptions.md R191). -/
def safeRun (r : Run) : Bool := r.mark.isNone

end Sys2Proof.Machine
end

