-- ==== Sys2Proof/Certificates/Slice0/Obligations.lean ====
section
/-! DEFINITION. The statements for the provers: what the numbered rules of spec/ say the machine and its units do. Results are
stated in numbers and bits, not in the model's own operations, where the rule gives them so. -/

open Sys2Proof Sys2Proof.Machine

/-! ### Encoding and decoding -/

/-- 30_encoding.md R52, R55, R56, R57, R58: the decoder reads from an instruction's word that instruction, every operand at
every value. The code numbers are the spec's decision D1 (log 9). -/
def Obligations.EncodeThenDecode : Prop := ∀ i : Instr, decode (encode i) = .ok i

/-- 30_encoding.md R62, "a model that keeps the raw word loses nothing": the word of what a word decodes to is that word. -/
def Obligations.DecodeThenEncode : Prop := ∀ (w : Word) (i : Instr), decode w = .ok i → encode i = w

/-- 30_encoding.md R57, R64: a word decodes exactly when a row of the opcode table accepts it, at most one row accepts it,
and the instruction it decodes to is of that row. The rows' numbers are the spec's decision D1 (log 9). -/
def Obligations.DecodesExactlyTableWords : Prop :=
  (∀ w : Word, (∃ i, decode w = .ok i) ↔ ∃ r ∈ opcodeTable, r.accepts w = true) ∧
  (∀ w : Word, ∀ r ∈ opcodeTable, ∀ r' ∈ opcodeTable, r.accepts w = true → r'.accepts w = true → r = r') ∧
  (∀ (w : Word) (i : Instr), decode w = .ok i →
    ⟨i.rowMask, i.rowMatch⟩ ∈ opcodeTable ∧ (OpcodeRow.mk i.rowMask i.rowMatch).accepts w = true)

/-- 30_encoding.md R51: every word is cut the same way; each field is the shift and mask of the table. -/
def Obligations.FieldsAreShiftsAndMasks : Prop :=
  ∀ w : Word,
    (fieldExtractor w).opcode.toNat = (w.toNat >>> 26) &&& 0x3F ∧
    (fieldExtractor w).rs.toNat = (w.toNat >>> 21) &&& 0x1F ∧
    (fieldExtractor w).rt.toNat = (w.toNat >>> 16) &&& 0x1F ∧
    (fieldExtractor w).rd.toNat = (w.toNat >>> 11) &&& 0x1F ∧
    (fieldExtractor w).shamt.toNat = (w.toNat >>> 6) &&& 0x1F ∧
    (fieldExtractor w).funct.toNat = w.toNat &&& 0x3F ∧
    (fieldExtractor w).imm16.toNat = w.toNat &&& 0xFFFF ∧
    (fieldExtractor w).imm32.toInt = (fieldExtractor w).imm16.toInt ∧
    (fieldExtractor w).address.toNat = w.toNat &&& 0x03FFFFFF

/-- 40_decoder.md R71: below 0x8000 the upper half of `imm32` is 0x0000, from 0x8000 on it is 0xFFFF; `imm16` is kept, and
lui takes it zero-extended. -/
def Obligations.ImmediateSignExtension : Prop :=
  ∀ w : Word,
    ((fieldExtractor w).imm16.toNat < 0x8000 → (fieldExtractor w).imm32.toNat = (fieldExtractor w).imm16.toNat) ∧
    (0x8000 ≤ (fieldExtractor w).imm16.toNat →
      (fieldExtractor w).imm32.toNat = 0xFFFF0000 ||| (fieldExtractor w).imm16.toNat) ∧
    (∀ rt : Word, selectB ctrlLui (fieldExtractor w) rt = (fieldExtractor w).imm16.setWidth 32 <<< 16)

/-- A sanity statement: words of every family, written out in 95_test_vectors.md V8 to V11, decode to the instructions
their assembly names, and two of V1 are rejected (code numbers: decision D1, log 9). The spec has the one Decode Failure; the
names `unsupportedFunct` and `unsupportedOpcode` and what they carry are the model's choice (log 15). -/
def Obligations.VectorWordsDecode : Prop :=
  decode 0x00010FC0#32 = .ok (.sll 0 1 1 31) ∧ decode 0x0022182A#32 = .ok (.slt 1 2 3 0) ∧
  decode 0x0BFFFFFF#32 = .ok (.j 0x3FFFFFF) ∧ decode 0x1422FFFE#32 = .ok (.bne 1 2 0xFFFE) ∧
  decode 0x2022000A#32 = .ok (.addi 1 2 10) ∧ decode 0x3FE21234#32 = .ok (.lui 31 2 0x1234) ∧
  decode 0x8C220008#32 = .ok (.lw 1 2 8) ∧ decode 0xAC22FFFC#32 = .ok (.sw 1 2 0xFFFC) ∧
  decode 0x0000000C#32 = .error (.unsupportedFunct 0x0C) ∧ decode 0x3421FFFF#32 = .error (.unsupportedOpcode 0x0D)

/-- 30_encoding.md R54, R62: a word that differs from an instruction's word only in bits the instruction ignores is the same
instruction with the same effect. -/
def Obligations.IgnoredBitsHaveNoEffect : Prop :=
  ∀ (w w' : Word) (i : Instr), decode w = .ok i → (w ^^^ w') &&& ~~~ i.ignoredBits = 0#32 →
    ∃ i', decode w' = .ok i' ∧ i'.rowMatch = i.rowMatch ∧ ∀ s, exec i' s = exec i s

/-- 30_encoding.md R58 with 41_datapath.md R122, R123: an accepted branch goes to its label when taken, an accepted jump to
its target. That a label is reached only without wrapping is the model's choice (log 14). -/
def Obligations.AssembledTransferReachesLabel : Prop :=
  (∀ (s : State) (rs rt label : Nat), s.pc.toNat % 4 = 0 → (Asm.beq rs rt label).wellFormed s.pc = true →
    s.x (.ofNat 5 rs) = s.x (.ofNat 5 rt) →
      TransfersTo s (exec ((Asm.beq rs rt label).instr s.pc) s) (BitVec.ofNat 32 label)) ∧
  (∀ (s : State) (rs rt label : Nat), s.pc.toNat % 4 = 0 → (Asm.bne rs rt label).wellFormed s.pc = true →
    s.x (.ofNat 5 rs) ≠ s.x (.ofNat 5 rt) →
      TransfersTo s (exec ((Asm.bne rs rt label).instr s.pc) s) (BitVec.ofNat 32 label)) ∧
  (∀ (s : State) (target : Nat), (Asm.j target).wellFormed s.pc = true →
      TransfersTo s (exec ((Asm.j target).instr s.pc) s) (BitVec.ofNat 32 target))

/-! ### The Control Unit -/

/-- 40_decoder.md R72, R75, R81: the Control Unit succeeds exactly where the decoder does, with the decoded instruction's row
of the control table, and fails with the inert vector elsewhere (code numbers D1, log 9; dashes D3, log 10). -/
def Obligations.ControlUnitAgreesWithDecoder : Prop :=
  ∀ w : Word,
    (∀ i, decode w = .ok i → controlUnit (fieldExtractor w) = (controlRow i, true)) ∧
    (∀ e, decode w = .error e → controlUnit (fieldExtractor w) = (Ctrl.inert, false))

/-- 40_decoder.md R82, its ten invariants of the control table in order (dashes are 0 by decision D3, log 10). -/
def Obligations.ControlTableInvariants : Prop :=
  ∀ (f : Fields) (c : Ctrl) (ok : Bool), controlUnit f = (c, ok) →
    ¬ (c.memRead = true ∧ c.memWrite = true) ∧
    (¬ (c.aluOp = .shift ∧ c.upperImm = true) ∧ (c.aluOp = .shift → c.aluSrc = false) ∧
      (c.upperImm = true → c.aluSrc = true ∧ c.aluOp = .add ∧ c.negate = false)) ∧
    ¬ (c.jump = true ∧ c.branch = true) ∧
    (c.regWrite = true → c.memWrite = false ∧ c.branch = false ∧ c.jump = false) ∧
    ((c.memToReg = true → c.memRead = true) ∧ (c.memRead = true → c.memToReg = true ∧ c.regWrite = true)) ∧
    (c.negate = true → c.aluOp = .add ∨ c.aluOp = .slt) ∧
    (c.notEqual = true → c.branch = true) ∧
    (c.aluOp ≠ .code6 ∧ c.aluOp ≠ .code7) ∧
    (c = Ctrl.inert ↔ ok = false) ∧
    (c.regDst = true ↔ f.opcode = 0#6 ∧ ok = true)

/-- 40_decoder.md R78, R79: the two packed ROMs have 64 entries each, and the selected entry is the Control Unit's vector,
packed, with `decode_ok` as its valid bit (decisions D2, D3, D4, log 10). -/
def Obligations.PackedRomHoldsTheTable : Prop :=
  functRom.length = 64 ∧ mainRom.length = 64 ∧
  ∀ f : Fields, romOutput f = ⟨(controlUnit f).2, (controlUnit f).1.pack⟩

/-- 40_decoder.md R80: the reserved flag is 0 in every vector the Control Unit produces, and no unit reads it. -/
def Obligations.ReservedFlagIsZeroAndUnread : Prop :=
  (∀ f : Fields, (controlUnit f).1.extra3 = false) ∧
  (∀ (c : Ctrl) (b : Bool) (f : Fields) (s : State), laterStages { c with extra3 := b } f s = laterStages c f s)

/-- 40_decoder.md R76: whatever stands in the eleven cells the control table leaves open, the cycle is the same. -/
def Obligations.OpenCellsHaveNoEffect : Prop :=
  (∀ (a n d : Bool) (o : AluOp) (f : Fields) (s : State),
    laterStages { ctrlJump with aluSrc := a, aluOp := o, negate := n, regDst := d } f s = laterStages ctrlJump f s) ∧
  (∀ (m d : Bool) (f : Fields) (s : State),
    laterStages { ctrlBeq with memToReg := m, regDst := d } f s = laterStages ctrlBeq f s ∧
    laterStages { ctrlBne with memToReg := m, regDst := d } f s = laterStages ctrlBne f s ∧
    laterStages { ctrlStore with memToReg := m, regDst := d } f s = laterStages ctrlStore f s)

/-! ### The datapath units -/

/-- 41_datapath.md R100, R101: what each selector returns, load-upper-immediate first in the one, shift first in the
other. -/
def Obligations.SelectorsFollowPrecedence : Prop :=
  ∀ (c : Ctrl) (f : Fields) (rs rt : Word),
    (c.upperImm = true → selectA c rs rt = 0#32) ∧
    (c.upperImm = false → c.aluOp = .shift → selectA c rs rt = rt) ∧
    (c.upperImm = false → c.aluOp ≠ .shift → selectA c rs rt = rs) ∧
    (c.aluOp = .shift → (selectB c f rt).toNat = f.shamt.toNat) ∧
    (c.aluOp ≠ .shift → c.upperImm = true → (selectB c f rt).toNat = f.imm16.toNat * 2 ^ 16) ∧
    (c.aluOp ≠ .shift → c.upperImm = false → c.aluSrc = false → selectB c f rt = rt) ∧
    (c.aluOp ≠ .shift → c.upperImm = false → c.aluSrc = true → selectB c f rt = f.imm32)

/-- 41_datapath.md R103, R104, R107: the six operations in numbers and bits. That and, or, xor take the negated operand is
the spec's reading D18 (log 11). -/
def Obligations.AluOperations : Prop :=
  ∀ (c : Ctrl) (a b : Word),
    (negated c b).toNat = (if c.negate = true then (2 ^ 32 - b.toNat) % 2 ^ 32 else b.toNat) ∧
    (c.aluOp = .and → ∀ k, k < 32 → (aluResult c a b).getLsbD k = (a.getLsbD k && (negated c b).getLsbD k)) ∧
    (c.aluOp = .or → ∀ k, k < 32 → (aluResult c a b).getLsbD k = (a.getLsbD k || (negated c b).getLsbD k)) ∧
    (c.aluOp = .xor → ∀ k, k < 32 → (aluResult c a b).getLsbD k = (a.getLsbD k != (negated c b).getLsbD k)) ∧
    (c.aluOp = .add → (aluResult c a b).toNat = (a.toNat + (negated c b).toNat) % 2 ^ 32) ∧
    (c.aluOp = .slt → aluResult c a b = if a.toInt < b.toInt then 1#32 else 0#32) ∧
    (c.aluOp = .shift → (aluResult c a b).toNat = a.toNat * 2 ^ (b.toNat % 32) % 2 ^ 32)

/-- 41_datapath.md R105, R106: the zero flag is set exactly at a zero result, whatever the operation; only the Next-PC Unit
reads it, and only when the branch signal is set; a code that names none of the six operations gives the result 0 and hence the
flag. -/
def Obligations.ZeroFlagAndUnrecognisedCode : Prop :=
  (∀ (c : Ctrl) (a b : Word), zeroFlag (aluResult c a b) = true ↔ (aluResult c a b).toNat = 0) ∧
  (∀ (c : Ctrl) (f : Fields) (zero zero' : Bool) (pc : Word), c.branch = false →
    nextPc c f zero pc = nextPc c f zero' pc) ∧
  (∀ (c : Ctrl) (a b : Word), c.aluOp ≠ .and → c.aluOp ≠ .or → c.aluOp ≠ .add → c.aluOp ≠ .slt → c.aluOp ≠ .xor →
    c.aluOp ≠ .shift → aluResult c a b = 0#32 ∧ zeroFlag (aluResult c a b) = true)

/-- 41_datapath.md R108: adding the negated operand is the exact wrapped difference at every pair, 0x80000000 negates to
itself, and the difference is zero exactly at equal operands. -/
def Obligations.NegateAndAddIsSubtraction : Prop :=
  ∀ (c : Ctrl) (a b : Word), c.aluOp = .add → c.negate = true →
    ((aluResult c a b).toNat : Int) = ((a.toNat : Int) - (b.toNat : Int)) % 2 ^ 32 ∧
    negated c 0x80000000#32 = 0x80000000#32 ∧
    (zeroFlag (aluResult c a b) = true ↔ a = b)

/-- 41_datapath.md R110, R111, R112: inside data memory the stage reads the old word and then writes; with neither enable it
makes no access whatever the address; outside it stops, the read first. Outside and both enables are the spec's decisions D7,
D17 (log 11). -/
def Obligations.MemoryStageReadsThenWrites : Prop :=
  ∀ (c : Ctrl) (s : State) (addr v : Word),
    (addr.toNat / 4 < s.dmemWords → ∃ t, memoryStage c s addr v =
        .ok ((if c.memRead = true then Memory.read s.dmem (addr.toNat / 4) else 0#32), t) ∧
      SameRegs s t ∧ t.pc = s.pc ∧ SameImem s t ∧
      (c.memWrite = true → DataUpdated s t (addr.toNat / 4) v) ∧ (c.memWrite = false → t = s)) ∧
    (c.memRead = false → c.memWrite = false → memoryStage c s addr v = .ok (0#32, s)) ∧
    (s.dmemWords ≤ addr.toNat / 4 → c.memRead = true → memoryStage c s addr v = .error .read) ∧
    (s.dmemWords ≤ addr.toNat / 4 → c.memRead = false → c.memWrite = true →
      memoryStage c s addr v = .error .write)

/-- 41_datapath.md R121: taken when the zero flag is 0 for branch-not-equal, 1 for branch-equal; with the branch rows the
flag is 1 exactly at equal registers. -/
def Obligations.BranchDecision : Prop :=
  (∀ (c : Ctrl) (zero : Bool), c.notEqual = true → (branchTaken c zero = true ↔ zero = false)) ∧
  (∀ (c : Ctrl) (zero : Bool), c.notEqual = false → (branchTaken c zero = true ↔ zero = true)) ∧
  (∀ (f : Fields) (rs rt : Word),
    (branchTaken ctrlBeq (zeroFlag (aluResult ctrlBeq (selectA ctrlBeq rs rt) (selectB ctrlBeq f rt))) = true ↔
      rs = rt) ∧
    (branchTaken ctrlBne (zeroFlag (aluResult ctrlBne (selectA ctrlBne rs rt) (selectB ctrlBne f rt))) = true ↔
      rs ≠ rt))

/-- 41_datapath.md R122: the top four bits of `pc + 4`, then the address field shifted left 2; always a multiple of 4. -/
def Obligations.JumpTargetAssembly : Prop :=
  ∀ (pc : Word) (address : BitVec 26),
    (jumpTarget pc address).toNat = (pc.toNat + 4) % 2 ^ 32 / 2 ^ 28 * 2 ^ 28 + address.toNat * 4 ∧
    (jumpTarget pc address).toNat % 4 = 0

/-- 41_datapath.md R120, R123: jump before branch before sequential, the branch target in signed words from `pc + 4`. The
sums wrap by decision D13 (log 5). -/
def Obligations.NextPcPriority : Prop :=
  ∀ (c : Ctrl) (f : Fields) (zero : Bool) (pc : Word), f.imm32 = sext32 f.imm16 →
    (c.jump = true → nextPc c f zero pc = jumpTarget pc f.address) ∧
    (c.jump = false → c.branch = true → branchTaken c zero = true →
      ((nextPc c f zero pc).toNat : Int) = ((pc.toNat : Int) + 4 + 4 * f.imm16.toInt) % 2 ^ 32) ∧
    (c.jump = false → (c.branch = false ∨ branchTaken c zero = false) →
      (nextPc c f zero pc).toNat = (pc.toNat + 4) % 2 ^ 32)

/-- 10_state.md R17: from a multiple of 4, the Next-PC Unit gives a multiple of 4, for every control vector, every field and
either flag; and a step from any other `pc` is refused (decision D16, log 8). -/
def Obligations.NextPcStaysAligned : Prop :=
  (∀ (c : Ctrl) (f : Fields) (zero : Bool) (pc : Word), pc.toNat % 4 = 0 → (nextPc c f zero pc).toNat % 4 = 0) ∧
  (∀ s : State, s.pc.toNat % 4 ≠ 0 → step s = .refused .launchPcMisaligned)

/-- 41_datapath.md R125: the Write-Back Unit, and that no other stage changes the register file. -/
def Obligations.WriteBackUnit : Prop :=
  (∀ (c : Ctrl) (f : Fields) (alu mem : Word) (s : State),
    (c.regWrite = false → writeBack c f alu mem s = s) ∧
    (c.regWrite = true → ∀ r, (writeBack c f alu mem s).x r =
      if r = (if c.regDst = true then f.rd else f.rt) ∧ r ≠ 0#5 then (if c.memToReg = true then mem else alu)
      else s.x r) ∧
    (writeBack c f alu mem s).pc = s.pc ∧ SameData s (writeBack c f alu mem s) ∧
    SameImem s (writeBack c f alu mem s)) ∧
  (∀ (c : Ctrl) (s t : State) (addr v m : Word), memoryStage c s addr v = .ok (m, t) → SameRegs s t) ∧
  (∀ (s : State) (a : Word), SameRegs s (s.setPc a))

/-- 00_scope.md R5, 41_datapath.md R131: with the data word at `dmem_index` as `dmem_rdata`, a cycle that commits changes
exactly what the boundary signals say: `pc` to `next_pc`, register `rf_waddr` to `rf_wdata` when `rf_we`, data word
`dmem_index` to `dmem_wdata` when `dmem_we`, never both, never register 0. The names are the spec's decision D5 (log 10).
Nothing is said of the outputs the model chooses (log 16): `rf_waddr` and `rf_wdata` without `rf_we`, and cycles that stop. -/
def Obligations.SignalsSayWhatIsCommitted : Prop :=
  ∀ (s t : State) (w rdata : Word), cycleWord s w = .next t →
    rdata = Memory.read s.dmem (boundarySignals s w rdata).dmemIndex.toNat →
    (boundarySignals s w rdata).decodeOk = true ∧
    t.pc = (boundarySignals s w rdata).nextPc ∧
    (∀ r, t.x r = if (boundarySignals s w rdata).rfWe = true ∧ r = (boundarySignals s w rdata).rfWaddr then
      (boundarySignals s w rdata).rfWdata else s.x r) ∧
    (∀ k, Memory.read t.dmem k = if (boundarySignals s w rdata).dmemWe = true ∧
      k = (boundarySignals s w rdata).dmemIndex.toNat then (boundarySignals s w rdata).dmemWdata
      else Memory.read s.dmem k) ∧
    ¬ ((boundarySignals s w rdata).rfWe = true ∧ (boundarySignals s w rdata).dmemWe = true) ∧
    ((boundarySignals s w rdata).rfWe = true → (boundarySignals s w rdata).rfWaddr ≠ 0#5) ∧
    t.dmemWords = s.dmemWords ∧ t.imem = s.imem

/-- 60_exceptions.md R192: the later stages with the inert vector would change nothing and go on at `pc + 4`; the model does
not run them, it stops with a Decode Failure. -/
def Obligations.InertVectorIsNotRun : Prop :=
  (∀ (f : Fields) (s : State), TransfersTo s (laterStages Ctrl.inert f s) (s.pc + 4#32)) ∧
  (∀ (s : State) (w : Word), (controlUnit (fieldExtractor w)).2 = false →
    cycleWord s w = .fault (.decodeFailure s.pc w))

/-! ### The machine -/

/-- 41_datapath.md R130 against 42_rformat.md to 45_load_store.md: one step of the instruction-level machine is one cycle of
the units driven by the control vector, in every state whose `pc` is a multiple of 4 (others are refused: D16, log 8). -/
def Obligations.StepIsTheDatapathCycle : Prop := ∀ s : State, s.pc.toNat % 4 = 0 → step s = cycle s

/-- Every step keeps the invariant: `pc` aligned (10_state.md R17), data memory canonical and inside its size, sizes legal
(00_scope.md R3). -/
def Obligations.EveryStepKeepsInvariant : Prop := ∀ s t : State, Inv s → step s = .next t → Inv t

/-- The invariant holds at reset and at every launch whose parameters are in the ranges of 00_scope.md R3 (the sizes at
reset itself are the model's choice, log 2, log 3). -/
def Obligations.LaunchMeetsInvariant : Prop :=
  Inv State.reset ∧
  ∀ (image : List Word) (n : Nat) (m : Memory), image.length ≤ 2 ^ 30 → 1 ≤ n → n ≤ 2 ^ 30 → Memory.wf m →
    (∀ c ∈ m, c.1 < n) → Inv (State.launch image n m)

/-- 10_state.md R24, 70_reset_and_hazards.md R210: what every launch leaves: registers 0 and `pc` 0 (the spec's decisions D10,
D11, log 5), data memory as given, no fault recorded, and the first word fetched is word 0 of the image. -/
def Obligations.LaunchState : Prop :=
  ∀ (image : List Word) (n : Nat) (m : Memory),
    (∀ r, (State.launch image n m).x r = 0#32) ∧ (State.launch image n m).pc = 0x00000000#32 ∧
    (∀ i, Memory.read (State.launch image n m).dmem i = Memory.read m i) ∧ (State.launch image n m).imem = image ∧
    (State.launch image n m).fetch = image[0]? ∧ (startRun (State.launch image n m)).mark = none

/-- A step runs the decoded instruction, with nothing around it: the program counter is the instruction's own business
(10_state.md R16). And a placed word is the one the next step runs (the model's load of a program, log 3). -/
def Obligations.StepRunsDecodedInstr : Prop :=
  (∀ (s : State) (w : Word) (i : Instr), s.pc.toNat % 4 = 0 → s.imem[s.pc.toNat / 4]? = some w →
    decode w = .ok i → step s = exec i s) ∧
  (∀ (s : State) (i : Instr), s.pc.toNat % 4 = 0 →
    step (s.withFetchWord 32 (encode i).toNat) = exec i (s.withFetchWord 32 (encode i).toNat))

/-- 60_exceptions.md R190, R196 with 41_datapath.md R132: when each outcome of a step that is no next state comes about, in
the order fetch, decode, data access. Out-of-range access is the spec's decision D7, D8, a misaligned launch D16 (log 8). -/
def Obligations.WhenAStepStops : Prop :=
  ∀ s : State, s.pc.toNat % 4 = 0 →
    (∀ r, step s ≠ .refused r) ∧
    (step s = .fault (.fetchOutOfRange s.pc) ↔ s.imem.length ≤ s.pc.toNat / 4) ∧
    (∀ w, step s = .fault (.decodeFailure s.pc w) ↔
      s.imem[s.pc.toNat / 4]? = some w ∧ ∀ r ∈ opcodeTable, r.accepts w = false) ∧
    (∀ (a : Word) (k : AccessKind), step s = .fault (.dataAccessOutOfRange s.pc a k) ↔
      ∃ w rs rt imm, s.imem[s.pc.toNat / 4]? = some w ∧
        ((k = .read ∧ decode w = .ok (.lw rs rt imm)) ∨ (k = .write ∧ decode w = .ok (.sw rs rt imm))) ∧
        a = effectiveAddress (s.x rs) imm ∧ s.dmemWords ≤ a.toNat / 4) ∧
    (∀ f, step s = .fault f → f = .fetchOutOfRange s.pc ∨ (∃ w, f = .decodeFailure s.pc w) ∨
      ∃ a k, f = .dataAccessOutOfRange s.pc a k)

/-- 60_exceptions.md R207: no other hardware error: the later stages never fail inside data memory, and no instruction but
lw and sw ever stops. -/
def Obligations.NoOtherErrorExists : Prop :=
  (∀ (c : Ctrl) (f : Fields) (s : State), (c.memRead = true ∨ c.memWrite = true →
      (aluResult c (selectA c (s.x f.rs) (s.x f.rt)) (selectB c f (s.x f.rt))).toNat / 4 < s.dmemWords) →
    ∃ t, laterStages c f s = .next t) ∧
  (∀ (i : Instr) (s : State), reachesData i = false → ∃ t, exec i s = .next t)

/-- 10_state.md R14, 20_memory.md R33, R42 and 41_datapath.md R131: what every instruction leaves unchanged: every register but
its destination, register 0 always, every data word but the one sw stores to, instruction memory, and the sizes. -/
def Obligations.FrameOfEveryInstr : Prop :=
  ∀ (i : Instr) (s t : State), exec i s = .next t →
    (∀ r, destination? i ≠ some r → t.x r = s.x r) ∧ t.x 0#5 = 0#32 ∧
    (∀ k, storedIndex? i s ≠ some k → Memory.read t.dmem k = Memory.read s.dmem k) ∧
    (destination? i = none ∨ storedIndex? i s = none) ∧
    t.imem = s.imem ∧ t.dmemWords = s.dmemWords

/-- 20_memory.md R42: the program text is the same in every cycle of a run, and what is fetched does not depend on data
memory. -/
def Obligations.StoresNeverReachFetch : Prop :=
  (∀ s t : State, step s = .next t → t.imem = s.imem) ∧
  (∀ (n : Nat) (endPc : Option Word) (r : Run), (drive endPc n r).state.imem = r.state.imem) ∧
  (∀ (s : State) (m : Memory), ({ s with dmem := m } : State).fetch = s.fetch)

/-- 20_memory.md R39: after a cycle data memory is as before with at most the one word of sw replaced; a load reads data
memory as it stood before the cycle; a word holds what the most recent store to it stored, or, where no store has reached it
since the launch, its reset value. -/
def Obligations.MemoryIsSequentiallyConsistent : Prop :=
  (∀ (i : Instr) (s t : State), exec i s = .next t →
    SameData s t ∨ ∃ rs rt imm, i = .sw rs rt imm ∧
      DataUpdated s t (wordIndex (effectiveAddress (s.x rs) imm)) (s.x rt)) ∧
  (∀ (rs rt : RegIdx) (imm : BitVec 16) (s t : State), exec (.lw rs rt imm) s = .next t → rt ≠ 0#5 →
    t.x rt = Memory.read s.dmem (wordIndex (effectiveAddress (s.x rs) imm))) ∧
  (∀ (rs rt : RegIdx) (imm : BitVec 16) (s t u : State), exec (.sw rs rt imm) s = .next t →
    KeepsWord (wordIndex (effectiveAddress (s.x rs) imm)) t u →
    Memory.read u.dmem (wordIndex (effectiveAddress (s.x rs) imm)) = s.x rt) ∧
  (∀ (image : List Word) (n k : Nat) (m : Memory) (s : State), KeepsWord k (State.launch image n m) s →
    Memory.read s.dmem k = Memory.read m k)

/-- 45_load_store.md R183: after sw, and any instructions that store to no such word, a lw of the same word index loads
exactly the word stored. -/
def Obligations.StoreThenLoadRoundTrips : Prop :=
  ∀ (rs rt rs' rt' : RegIdx) (off off' : BitVec 16) (s t u : State), exec (.sw rs rt off) s = .next t →
    KeepsWord (wordIndex (effectiveAddress (s.x rs) off)) t u →
    wordIndex (effectiveAddress (u.x rs') off') = wordIndex (effectiveAddress (s.x rs) off) →
      WritesOnly u (exec (.lw rs' rt' off') u) rt' (s.x rt)

/-- 10_state.md R11: register 0 reads 0 in every state, for every reader: also as the data of sw and as the base of lw and
sw. -/
def Obligations.RegisterZeroReadsZero : Prop :=
  (∀ s : State, s.x 0#5 = 0#32) ∧
  (∀ (s : State) (rs : RegIdx) (imm : BitVec 16), wordIndex (effectiveAddress (s.x rs) imm) < s.dmemWords →
    StoresOnly s (exec (.sw rs 0#5 imm) s) (wordIndex (effectiveAddress (s.x rs) imm)) 0#32) ∧
  (∀ (s : State) (rt : RegIdx) (imm : BitVec 16), (sext32 imm).toNat / 4 < s.dmemWords →
    WritesOnly s (exec (.lw 0#5 rt imm) s) rt (Memory.read s.dmem ((sext32 imm).toNat / 4)) ∧
    StoresOnly s (exec (.sw 0#5 rt imm) s) ((sext32 imm).toNat / 4) (s.x rt))

/-- 10_state.md R12: an instruction whose destination is register 0 changes nothing but `pc`, which goes on to `pc + 4`; a
load still makes its access, and stops where that is outside data memory. -/
def Obligations.WritesToZeroAreDiscarded : Prop :=
  (∀ (s : State) (v : Word), s.writeReg 0#5 v = s) ∧
  (∀ (i : Instr) (s : State), destination? i = some 0#5 → reachesData i = false →
    TransfersTo s (exec i s) (s.pc + 4#32)) ∧
  (∀ (s : State) (rs : RegIdx) (imm : BitVec 16),
    if wordIndex (effectiveAddress (s.x rs) imm) < s.dmemWords then
      TransfersTo s (exec (.lw rs 0#5 imm) s) (s.pc + 4#32)
    else exec (.lw rs 0#5 imm) s =
      .fault (.dataAccessOutOfRange s.pc (effectiveAddress (s.x rs) imm) .read))

/-- 40_decoder.md R83: instructions that share a control vector are the same for all operands, and none traps. -/
def Obligations.SharedRowsAreOneInstr : Prop :=
  ∀ (rs rt rd sh : BitVec 5) (imm : BitVec 16) (s : State),
    (controlRow (.add rs rt rd sh) = controlRow (.addu rs rt rd sh) ∧
      exec (.add rs rt rd sh) s = exec (.addu rs rt rd sh) s ∧ ∃ t, exec (.add rs rt rd sh) s = .next t) ∧
    (controlRow (.sub rs rt rd sh) = controlRow (.subu rs rt rd sh) ∧
      exec (.sub rs rt rd sh) s = exec (.subu rs rt rd sh) s ∧ ∃ t, exec (.sub rs rt rd sh) s = .next t) ∧
    (controlRow (.addi rs rt imm) = controlRow (.addiu rs rt imm) ∧
      exec (.addi rs rt imm) s = exec (.addiu rs rt imm) s ∧ ∃ t, exec (.addi rs rt imm) s = .next t)

/-- 70_reset_and_hazards.md R218: registers are read before any is written: `add r, r, r` doubles, `lw r, 0(r)` uses the old
base, `sw r, 0(r)` stores the base; a branch decides on the registers before the cycle; no instruction both transfers and
writes a register. -/
def Obligations.ReadsComeBeforeWrites : Prop :=
  (∀ (r sh : BitVec 5) (s : State), ∃ v : Word,
    v.toNat = 2 * (s.x r).toNat % 2 ^ 32 ∧ WritesOnly s (exec (.add r r r sh) s) r v) ∧
  (∀ (r : RegIdx) (s : State), (s.x r).toNat / 4 < s.dmemWords →
    WritesOnly s (exec (.lw r r 0#16) s) r (Memory.read s.dmem ((s.x r).toNat / 4)) ∧
    StoresOnly s (exec (.sw r r 0#16) s) ((s.x r).toNat / 4) (s.x r)) ∧
  (∀ (rs rt : RegIdx) (imm : BitVec 16) (s : State),
    TransfersTo s (exec (.beq rs rt imm) s) (if s.x rs = s.x rt then branchTarget s.pc imm else s.pc + 4#32) ∧
    TransfersTo s (exec (.bne rs rt imm) s) (if s.x rs = s.x rt then s.pc + 4#32 else branchTarget s.pc imm)) ∧
  (∀ (i : Instr) (s t : State), exec i s = .next t → t.pc ≠ s.pc + 4#32 → SameRegs s t)

/-- 43_jump_branch.md R163: the instruction executed after a jump or a taken branch is the one at the target. -/
def Obligations.NoDelaySlot : Prop :=
  ∀ (s t : State) (i : Instr) (w : Word) (next : Instr) (target : Word),
    fetchDecode s = .instr i →
    ((∃ a, i = .j a ∧ target = jumpTarget s.pc a) ∨
      (∃ rs rt imm, i = .beq rs rt imm ∧ s.x rs = s.x rt ∧ target = branchTarget s.pc imm) ∨
      (∃ rs rt imm, i = .bne rs rt imm ∧ s.x rs ≠ s.x rt ∧ target = branchTarget s.pc imm)) →
    s.imem[target.toNat / 4]? = some w → decode w = .ok next →
    step s = .next t → t.pc = target ∧ step t = exec next t

/-- 20_memory.md R31, R34: data addresses that differ in their two low bits reach the same word, without a fault
(decision D6, log 5). -/
def Obligations.MisalignedDataReachesItsWord : Prop :=
  ∀ (rs rt : RegIdx) (imm imm' : BitVec 16) (s : State),
    effectiveAddress (s.x rs) imm &&& 0xFFFFFFFC#32 = effectiveAddress (s.x rs) imm' &&& 0xFFFFFFFC#32 →
    (effectiveAddress (s.x rs) imm).toNat / 4 < s.dmemWords →
      exec (.lw rs rt imm) s = exec (.lw rs rt imm') s ∧ exec (.sw rs rt imm) s = exec (.sw rs rt imm') s

/-- 45_load_store.md R182, 20_memory.md R31: the effective address is base plus signed displacement, wrapped, and its word
index the address divided by 4, unsigned (decisions D6, D13, log 5). -/
def Obligations.EffectiveAddressAndIndex : Prop :=
  ∀ (base : Word) (imm : BitVec 16),
    ((effectiveAddress base imm).toNat : Int) = ((base.toNat : Int) + imm.toInt) % 2 ^ 32 ∧
    wordIndex (effectiveAddress base imm) = (effectiveAddress base imm).toNat / 4 ∧
    wordIndex (effectiveAddress base imm) < 2 ^ 30

/-- The canonical form of data memory means something: two canonical memories that read the same are the same data
(the model's form, log 7). -/
def Obligations.CanonicalMemoriesAreDetermined : Prop :=
  ∀ m m' : Memory, Memory.wf m → Memory.wf m' → (∀ i, Memory.read m i = Memory.read m' i) → m = m'

/-! ### The host's run -/

/-- 60_exceptions.md R191, R193, R194: a fault commits nothing, sets the mark, and is terminal: no further clock changes
anything (terminal by decision D14, log 4). -/
def Obligations.FaultIsTerminal : Prop :=
  ∀ (s : State) (f : Fault), step s = .fault f →
    clock (startRun s) = ⟨s, some f⟩ ∧
    ∀ (n : Nat) (endPc : Option Word), drive endPc n ⟨s, some f⟩ = ⟨s, some f⟩ ∧ clock ⟨s, some f⟩ = ⟨s, some f⟩

/-- 70_reset_and_hazards.md R216: at END_PC the run is over and stays so, the instruction there is not executed; a jump or a
branch to itself changes no state, so any larger budget gives the same state (decision D15, log 12). -/
def Obligations.EndOfRunIsStable : Prop :=
  (∀ (n m : Nat) (e : Word) (r : Run), runStatus (some e) (drive (some e) n r) = .ended →
    drive (some e) (n + m) r = drive (some e) n r ∧ (drive (some e) n r).state.pc = e) ∧
  (∀ (s : State) (a : BitVec 26), jumpTarget s.pc a = s.pc → exec (.j a) s = .next s) ∧
  (∀ (s : State) (r : RegIdx), exec (.beq r r 0xFFFF#16) s = .next s) ∧
  (∀ (s : State), step s = .next s → ∀ n, drive none n (startRun s) = startRun s)

/-! ### The register-format instructions (42_rformat.md R140 to R149) -/

/-- sll: `x[rd] <- (x[rt] << shamt) mod 2^32`, whatever the rs field; nothing else but `pc + 4`. -/
def Obligations.ShiftLeftResult : Prop :=
  ∀ (rs rt rd sh : BitVec 5) (s : State), ∃ v : Word,
    v.toNat = (s.x rt).toNat * 2 ^ sh.toNat % 2 ^ 32 ∧ WritesOnly s (exec (.sll rs rt rd sh) s) rd v

/-- add and addu: the sum modulo 2^32, no trap; nothing else but `pc + 4`. -/
def Obligations.AddResults : Prop :=
  ∀ (rs rt rd sh : BitVec 5) (s : State), ∃ v : Word,
    v.toNat = ((s.x rs).toNat + (s.x rt).toNat) % 2 ^ 32 ∧
    WritesOnly s (exec (.add rs rt rd sh) s) rd v ∧ WritesOnly s (exec (.addu rs rt rd sh) s) rd v

/-- sub and subu: the difference modulo 2^32, no trap; nothing else but `pc + 4`. -/
def Obligations.SubtractResults : Prop :=
  ∀ (rs rt rd sh : BitVec 5) (s : State), ∃ v : Word,
    (v.toNat : Int) = (((s.x rs).toNat : Int) - ((s.x rt).toNat : Int)) % 2 ^ 32 ∧
    WritesOnly s (exec (.sub rs rt rd sh) s) rd v ∧ WritesOnly s (exec (.subu rs rt rd sh) s) rd v

/-- and, or, xor: bit by bit; nothing else but `pc + 4`. -/
def Obligations.BitwiseResults : Prop :=
  ∀ (rs rt rd sh : BitVec 5) (s : State), ∃ va vo vx : Word,
    (∀ k, k < 32 → va.getLsbD k = ((s.x rs).getLsbD k && (s.x rt).getLsbD k) ∧
      vo.getLsbD k = ((s.x rs).getLsbD k || (s.x rt).getLsbD k) ∧
      vx.getLsbD k = ((s.x rs).getLsbD k != (s.x rt).getLsbD k)) ∧
    WritesOnly s (exec (.and rs rt rd sh) s) rd va ∧ WritesOnly s (exec (.or rs rt rd sh) s) rd vo ∧
    WritesOnly s (exec (.xor rs rt rd sh) s) rd vx

/-- slt: 1 when the first register is less as a signed number, else 0, exact at every pair; nothing else but `pc + 4`. -/
def Obligations.SetLessThanResult : Prop :=
  ∀ (rs rt rd sh : BitVec 5) (s : State),
    WritesOnly s (exec (.slt rs rt rd sh) s) rd (if (s.x rs).toInt < (s.x rt).toInt then 1#32 else 0#32)

/-! ### The jump and the branches (43_jump_branch.md R160 to R164) -/

/-- j: the target, and nothing else changes. -/
def Obligations.JumpResult : Prop :=
  ∀ (a : BitVec 26) (s : State), ∃ target : Word,
    target.toNat = (s.pc.toNat + 4) % 2 ^ 32 / 2 ^ 28 * 2 ^ 28 + a.toNat * 4 ∧ TransfersTo s (exec (.j a) s) target

/-- beq: the branch target when the registers are equal, else `pc + 4`, and nothing else changes. -/
def Obligations.BranchEqualResult : Prop :=
  ∀ (rs rt : RegIdx) (imm : BitVec 16) (s : State), ∃ target : Word,
    (target.toNat : Int) = ((s.pc.toNat : Int) + 4 + (if s.x rs = s.x rt then 4 * imm.toInt else 0)) % 2 ^ 32 ∧
    TransfersTo s (exec (.beq rs rt imm) s) target

/-- bne: the branch target when the registers differ, else `pc + 4`, and nothing else changes. -/
def Obligations.BranchNotEqualResult : Prop :=
  ∀ (rs rt : RegIdx) (imm : BitVec 16) (s : State), ∃ target : Word,
    (target.toNat : Int) = ((s.pc.toNat : Int) + 4 + (if s.x rs = s.x rt then 0 else 4 * imm.toInt)) % 2 ^ 32 ∧
    TransfersTo s (exec (.bne rs rt imm) s) target

/-! ### The register-immediate instructions (44_immediate.md R170 to R174) -/

/-- addi and addiu: the sum with the sign-extended immediate modulo 2^32, no trap; nothing else but `pc + 4`. -/
def Obligations.AddImmediateResults : Prop :=
  ∀ (rs rt : RegIdx) (imm : BitVec 16) (s : State), ∃ v : Word,
    (v.toNat : Int) = (((s.x rs).toNat : Int) + imm.toInt) % 2 ^ 32 ∧
    WritesOnly s (exec (.addi rs rt imm) s) rt v ∧ WritesOnly s (exec (.addiu rs rt imm) s) rt v

/-- slti: 1 when the register is less than the sign-extended immediate as signed numbers, else 0; nothing else but
`pc + 4`. -/
def Obligations.SetLessThanImmediateResult : Prop :=
  ∀ (rs rt : RegIdx) (imm : BitVec 16) (s : State),
    WritesOnly s (exec (.slti rs rt imm) s) rt (if (s.x rs).toInt < imm.toInt then 1#32 else 0#32)

/-- lui: the immediate times 2^16, whatever the rs field; nothing else but `pc + 4`. -/
def Obligations.LoadUpperResult : Prop :=
  ∀ (rs rt : RegIdx) (imm : BitVec 16) (s : State), ∃ v : Word,
    v.toNat = imm.toNat * 2 ^ 16 ∧ WritesOnly s (exec (.lui rs rt imm) s) rt v

/-! ### The load and the store (45_load_store.md R180 to R182) -/

/-- lw: inside data memory, the word at the effective address goes to `rt`, discarded when that is register 0, and nothing
else changes but `pc + 4`. -/
def Obligations.LoadWordResult : Prop :=
  ∀ (rs rt : RegIdx) (imm : BitVec 16) (s : State),
    wordIndex (effectiveAddress (s.x rs) imm) < s.dmemWords →
      WritesOnly s (exec (.lw rs rt imm) s) rt (Memory.read s.dmem (wordIndex (effectiveAddress (s.x rs) imm)))

/-- sw: inside data memory, the word at the effective address becomes x[rt], and nothing else changes but `pc + 4`. -/
def Obligations.StoreWordResult : Prop :=
  ∀ (rs rt : RegIdx) (imm : BitVec 16) (s : State),
    wordIndex (effectiveAddress (s.x rs) imm) < s.dmemWords →
      StoresOnly s (exec (.sw rs rt imm) s) (wordIndex (effectiveAddress (s.x rs) imm)) (s.x rt)

/-- 60_exceptions.md R193: outside data memory lw and sw stop, with `pc`, the address and the kind of access recorded, also
when the load's destination is register 0 (decision D7). -/
def Obligations.AccessOutsideStops : Prop :=
  ∀ (rs rt : RegIdx) (imm : BitVec 16) (s : State),
    s.dmemWords ≤ wordIndex (effectiveAddress (s.x rs) imm) →
      exec (.lw rs rt imm) s = .fault (.dataAccessOutOfRange s.pc (effectiveAddress (s.x rs) imm) .read) ∧
      exec (.sw rs rt imm) s = .fault (.dataAccessOutOfRange s.pc (effectiveAddress (s.x rs) imm) .write)
end

