-- ==== Sys2Proof/Laws/Arithmetic.lean ====
section
/-! SUPPORT. The operand forms, the comparison and the addresses in numbers: one lemma for each, so that no proof about an
instruction goes back to bits. -/

namespace Sys2Proof.Machine

theorem signed_eq_toInt (v : Word) : signed v = v.toInt := by
  unfold signed
  rw [BitVec.toInt_eq_toNat_cond]
  split <;> split <;> omega

theorem setLessThan_eq (a b : Word) : setLessThan a b = if a.toInt < b.toInt then 1#32 else 0#32 := by
  simp only [setLessThan, signed_eq_toInt]

theorem sequential_toNat (pc : Word) : (sequential pc).toNat = (pc.toNat + 4) % 2 ^ 32 := by
  simp [sequential, BitVec.toNat_add]

theorem wordIndex_eq (a : Word) : wordIndex a = a.toNat / 4 := by
  simp [wordIndex, BitVec.toNat_ushiftRight, Nat.shiftRight_eq_div_pow]

theorem aligned_iff (a : Word) : aligned a = true ↔ a.toNat % 4 = 0 := by
  unfold aligned
  rw [beq_iff_eq, ← BitVec.toNat_inj]
  simp [BitVec.extractLsb'_toNat]

theorem sext32_toInt (v : BitVec 16) : (sext32 v).toInt = v.toInt :=
  BitVec.toInt_signExtend_of_le (by decide)

/-- A word's number is its signed reading modulo 2^32. -/
theorem toNat_eq_toInt_emod (v : Word) : (v.toNat : Int) = v.toInt % 2 ^ 32 := by
  have := v.isLt
  rw [BitVec.toInt_eq_toNat_cond]
  split <;> omega

theorem effectiveAddress_toNat (base : Word) (imm : BitVec 16) :
    ((effectiveAddress base imm).toNat : Int) = ((base.toNat : Int) + imm.toInt) % 2 ^ 32 := by
  have h := toNat_eq_toInt_emod (sext32 imm)
  rw [sext32_toInt] at h
  unfold effectiveAddress
  rw [BitVec.toNat_add]
  omega

theorem upperImmediate_toNat (imm : BitVec 16) : (upperImmediate imm).toNat = imm.toNat * 2 ^ 16 := by
  have := imm.isLt
  simp only [upperImmediate, BitVec.toNat_shiftLeft, BitVec.toNat_setWidth, Nat.shiftLeft_eq]
  omega

theorem branchOffset_toNat (imm : BitVec 16) : ((branchOffset imm).toNat : Int) = 4 * imm.toInt % 2 ^ 32 := by
  have h := toNat_eq_toInt_emod (sext32 imm)
  rw [sext32_toInt] at h
  simp only [branchOffset, BitVec.toNat_shiftLeft, Nat.shiftLeft_eq]
  omega

theorem branchTarget_toNat (pc : Word) (imm : BitVec 16) :
    ((branchTarget pc imm).toNat : Int) = ((pc.toNat : Int) + 4 + 4 * imm.toInt) % 2 ^ 32 := by
  have h := branchOffset_toNat imm
  have hs := sequential_toNat pc
  unfold branchTarget
  rw [BitVec.toNat_add]
  omega

end Sys2Proof.Machine
end

