-- ==== Sys2Proof/Laws/Decode.lean ====
section
/-! SUPPORT. The encoder's three forms: each field of an encoded word is the field put in. Every lemma compares bit by bit. -/

namespace Sys2Proof

theorem opcodeOf_encodeR (fn : BitVec 6) (rs rt rd sh : BitVec 5) :
    opcodeOf (encodeR fn rs rt rd sh) = 0#6 := by
  apply BitVec.eq_of_getLsbD_eq; intro i hi
  interval_cases i <;> simp [opcodeOf, encodeR]

theorem rsOf_encodeR (fn : BitVec 6) (rs rt rd sh : BitVec 5) :
    rsOf (encodeR fn rs rt rd sh) = rs := by
  apply BitVec.eq_of_getLsbD_eq; intro i hi
  interval_cases i <;> simp [rsOf, encodeR]

theorem rtOf_encodeR (fn : BitVec 6) (rs rt rd sh : BitVec 5) :
    rtOf (encodeR fn rs rt rd sh) = rt := by
  apply BitVec.eq_of_getLsbD_eq; intro i hi
  interval_cases i <;> simp [rtOf, encodeR]

theorem rdOf_encodeR (fn : BitVec 6) (rs rt rd sh : BitVec 5) :
    rdOf (encodeR fn rs rt rd sh) = rd := by
  apply BitVec.eq_of_getLsbD_eq; intro i hi
  interval_cases i <;> simp [rdOf, encodeR]

theorem shamtOf_encodeR (fn : BitVec 6) (rs rt rd sh : BitVec 5) :
    shamtOf (encodeR fn rs rt rd sh) = sh := by
  apply BitVec.eq_of_getLsbD_eq; intro i hi
  interval_cases i <;> simp [shamtOf, encodeR]

theorem functOf_encodeR (fn : BitVec 6) (rs rt rd sh : BitVec 5) :
    functOf (encodeR fn rs rt rd sh) = fn := by
  apply BitVec.eq_of_getLsbD_eq; intro i hi
  interval_cases i <;> simp [functOf, encodeR]

theorem opcodeOf_encodeI (op : BitVec 6) (rs rt : BitVec 5) (imm : BitVec 16) :
    opcodeOf (encodeI op rs rt imm) = op := by
  apply BitVec.eq_of_getLsbD_eq; intro i hi
  interval_cases i <;> simp [opcodeOf, encodeI]

theorem rsOf_encodeI (op : BitVec 6) (rs rt : BitVec 5) (imm : BitVec 16) :
    rsOf (encodeI op rs rt imm) = rs := by
  apply BitVec.eq_of_getLsbD_eq; intro i hi
  interval_cases i <;> simp [rsOf, encodeI]

theorem rtOf_encodeI (op : BitVec 6) (rs rt : BitVec 5) (imm : BitVec 16) :
    rtOf (encodeI op rs rt imm) = rt := by
  apply BitVec.eq_of_getLsbD_eq; intro i hi
  interval_cases i <;> simp [rtOf, encodeI]

theorem imm16Of_encodeI (op : BitVec 6) (rs rt : BitVec 5) (imm : BitVec 16) :
    imm16Of (encodeI op rs rt imm) = imm := by
  apply BitVec.eq_of_getLsbD_eq; intro i hi
  interval_cases i <;> simp [imm16Of, encodeI]

theorem opcodeOf_encodeJ (op : BitVec 6) (ad : BitVec 26) :
    opcodeOf (encodeJ op ad) = op := by
  apply BitVec.eq_of_getLsbD_eq; intro i hi
  interval_cases i <;> simp [opcodeOf, encodeJ]

theorem addressOf_encodeJ (op : BitVec 6) (ad : BitVec 26) :
    addressOf (encodeJ op ad) = ad := by
  apply BitVec.eq_of_getLsbD_eq; intro i hi
  interval_cases i <;> simp [addressOf, encodeJ]

/-- The match and mask of the register format leave the code fields of an encoded word. -/
theorem encodeR_row (fn : BitVec 6) (rs rt rd sh : BitVec 5) :
    encodeR fn rs rt rd sh &&& 0xFC00003F#32 = fn.setWidth 32 := by
  apply BitVec.eq_of_getLsbD_eq; intro i hi
  interval_cases i <;> simp [encodeR]

theorem encodeI_row (op : BitVec 6) (rs rt : BitVec 5) (imm : BitVec 16) :
    encodeI op rs rt imm &&& 0xFC000000#32 = op.setWidth 32 <<< 26 := by
  apply BitVec.eq_of_getLsbD_eq; intro i hi
  interval_cases i <;> simp [encodeI]

theorem encodeJ_row (op : BitVec 6) (ad : BitVec 26) :
    encodeJ op ad &&& 0xFC000000#32 = op.setWidth 32 <<< 26 := by
  apply BitVec.eq_of_getLsbD_eq; intro i hi
  interval_cases i <;> simp [encodeJ]

/-- What the decoder answers, by the two levels of its lookup. -/
theorem decode_eq (w : Word) :
    decode w = if opcodeOf w = 0#6 then decodeFunct (fieldExtractor w) else decodeOpcode (fieldExtractor w) := rfl

end Sys2Proof
end

