-- ==== Sys2Proof/Laws/State.lean ====
section
/-! SUPPORT. One lemma for each field of State under each update, so that no proof unfolds a record update. -/

namespace Sys2Proof.Machine

@[simp] theorem setPc_regs (s : State) (t : Word) : (s.setPc t).regs = s.regs := rfl
@[simp] theorem setPc_pc (s : State) (t : Word) : (s.setPc t).pc = t := rfl
@[simp] theorem setPc_dmem (s : State) (t : Word) : (s.setPc t).dmem = s.dmem := rfl
@[simp] theorem setPc_dmemWords (s : State) (t : Word) : (s.setPc t).dmemWords = s.dmemWords := rfl
@[simp] theorem setPc_imem (s : State) (t : Word) : (s.setPc t).imem = s.imem := rfl

@[simp] theorem writeReg_pc (s : State) (i : RegIdx) (v : Word) : (s.writeReg i v).pc = s.pc := by
  unfold State.writeReg; split <;> rfl

@[simp] theorem writeReg_dmem (s : State) (i : RegIdx) (v : Word) : (s.writeReg i v).dmem = s.dmem := by
  unfold State.writeReg; split <;> rfl

@[simp] theorem writeReg_dmemWords (s : State) (i : RegIdx) (v : Word) :
    (s.writeReg i v).dmemWords = s.dmemWords := by
  unfold State.writeReg; split <;> rfl

@[simp] theorem writeReg_imem (s : State) (i : RegIdx) (v : Word) : (s.writeReg i v).imem = s.imem := by
  unfold State.writeReg; split <;> rfl

@[simp] theorem launch_pc (l : List Word) (n : Nat) (m : Memory) : (State.launch l n m).pc = resetPc := rfl
@[simp] theorem launch_dmem (l : List Word) (n : Nat) (m : Memory) : (State.launch l n m).dmem = m := rfl
@[simp] theorem launch_dmemWords (l : List Word) (n : Nat) (m : Memory) :
    (State.launch l n m).dmemWords = n := rfl
@[simp] theorem launch_imem (l : List Word) (n : Nat) (m : Memory) : (State.launch l n m).imem = l := rfl

end Sys2Proof.Machine
end

