-- ==== Sys2Proof/Laws/Memory.lean ====
section
/-! SUPPORT. Data memory: a read after a write, for every list whether canonical or not, and that every memory operation
keeps the canonical form. -/

namespace Sys2Proof.Machine

@[simp] theorem read_nil (i : Nat) : Memory.read [] i = 0#32 := rfl

theorem read_cons (j : Nat) (v : Word) (m : Memory) (i : Nat) :
    Memory.read ((j, v) :: m) i = if i = j then v else Memory.read m i := rfl

/-- An index that no pair lists reads as 0. -/
theorem read_of_not_listed {m : Memory} {i : Nat} (h : ∀ c ∈ m, c.1 ≠ i) : Memory.read m i = 0#32 := by
  induction m with
  | nil => rfl
  | cons c m ih =>
    obtain ⟨j, v⟩ := c
    have hj : ¬ i = j := fun e => h (j, v) (by simp) e.symm
    rw [read_cons, if_neg hj, ih (fun c hc => h c (List.mem_cons_of_mem _ hc))]

theorem mem_erase {m : Memory} {i : Nat} {c : Nat × Word} : c ∈ Memory.erase m i ↔ c ∈ m ∧ c.1 ≠ i := by
  simp [Memory.erase]

theorem read_erase (m : Memory) (i k : Nat) :
    Memory.read (Memory.erase m i) k = if k = i then 0#32 else Memory.read m k := by
  induction m with
  | nil => simp [Memory.erase]
  | cons c m ih =>
    obtain ⟨j, v⟩ := c
    by_cases hj : j = i
    · subst hj
      have : Memory.erase ((j, v) :: m) j = Memory.erase m j := by simp [Memory.erase]
      rw [this, ih, read_cons]
      by_cases hk : k = j <;> simp [hk]
    · have : Memory.erase ((j, v) :: m) i = (j, v) :: Memory.erase m i := by simp [Memory.erase, hj]
      rw [this, read_cons, ih, read_cons]
      by_cases hk : k = j
      · subst hk; simp [hj]
      · simp [hk]

theorem mem_insert {m : Memory} {i : Nat} {v : Word} {c : Nat × Word} :
    c ∈ Memory.insert m i v ↔ c = (i, v) ∨ c ∈ m := by
  induction m with
  | nil => simp [Memory.insert]
  | cons d m ih =>
    obtain ⟨j, u⟩ := d
    unfold Memory.insert
    split
    · simp
    · simp only [List.mem_cons, ih]; tauto

theorem read_insert {m : Memory} {i : Nat} (h : ∀ c ∈ m, c.1 ≠ i) (v : Word) (k : Nat) :
    Memory.read (Memory.insert m i v) k = if k = i then v else Memory.read m k := by
  induction m with
  | nil => rfl
  | cons d m ih =>
    obtain ⟨j, u⟩ := d
    have hj : j ≠ i := h (j, u) (by simp)
    unfold Memory.insert
    split
    · rw [read_cons]
    · rw [read_cons, ih (fun c hc => h c (List.mem_cons_of_mem _ hc)), read_cons]
      by_cases hk : k = j
      · subst hk; simp [hj]
      · simp [hk]

/-- A read after a write: the addressed word is the value written, every other word is as before. -/
theorem read_write (m : Memory) (i : Nat) (v : Word) (k : Nat) :
    Memory.read (Memory.write m i v) k = if k = i then v else Memory.read m k := by
  unfold Memory.write
  split
  · rename_i hv; rw [read_erase, hv]
  · rw [read_insert (fun c hc => (mem_erase.1 hc).2), read_erase]
    by_cases hk : k = i <;> simp [hk]

theorem wf_nil : Memory.wf [] := by simp [Memory.wf]

theorem wf_erase {m : Memory} (h : Memory.wf m) (i : Nat) : Memory.wf (Memory.erase m i) :=
  ⟨h.1.filter _, fun c hc => h.2 c (mem_erase.1 hc).1⟩

theorem wf_insert {m : Memory} (h : Memory.wf m) {i : Nat} (hi : ∀ c ∈ m, c.1 ≠ i) {v : Word} (hv : v ≠ 0#32) :
    Memory.wf (Memory.insert m i v) := by
  refine ⟨?_, fun c hc => ?_⟩
  · induction m with
    | nil => simp [Memory.insert]
    | cons d m ih =>
      obtain ⟨j, u⟩ := d
      obtain ⟨hp, hz⟩ := h
      rw [List.pairwise_cons] at hp
      have hj : j ≠ i := hi (j, u) (by simp)
      unfold Memory.insert
      split
      · rename_i hlt
        refine List.pairwise_cons.2 ⟨fun c hc => ?_, List.pairwise_cons.2 hp⟩
        rcases List.mem_cons.1 hc with rfl | hc
        · exact hlt
        · exact Nat.lt_trans hlt (hp.1 c hc)
      · rename_i hge
        refine List.pairwise_cons.2 ⟨fun c hc => ?_, ih ⟨hp.2, fun c hc => hz c (List.mem_cons_of_mem _ hc)⟩
          (fun c hc => hi c (List.mem_cons_of_mem _ hc))⟩
        rcases mem_insert.1 hc with rfl | hc
        · simp only; omega
        · exact hp.1 c hc
  · rcases mem_insert.1 hc with rfl | hc
    · exact hv
    · exact h.2 c hc

/-- A write keeps the canonical form. -/
theorem wf_write {m : Memory} (h : Memory.wf m) (i : Nat) (v : Word) : Memory.wf (Memory.write m i v) := by
  unfold Memory.write
  split
  · exact wf_erase h i
  · rename_i hv; exact wf_insert (wf_erase h i) (fun c hc => (mem_erase.1 hc).2) hv

/-- Every index a write leaves listed was listed before or is the one written. -/
theorem mem_write {m : Memory} {i : Nat} {v : Word} {c : Nat × Word} (h : c ∈ Memory.write m i v) :
    c.1 = i ∨ c ∈ m := by
  unfold Memory.write at h
  split at h
  · exact .inr (mem_erase.1 h).1
  · rcases mem_insert.1 h with rfl | h
    · exact .inl rfl
    · exact .inr (mem_erase.1 h).1

theorem wf_launch (l : List Word) (n : Nat) {m : Memory} (h : Memory.wf m) : Memory.wf (State.launch l n m).dmem := h

theorem wf_reset : Memory.wf State.reset.dmem := wf_nil

/-- What a load gives. -/
theorem loadWord_eq (s : State) (a : Word) :
    s.loadWord a = if wordIndex a < s.dmemWords then some (Memory.read s.dmem (wordIndex a)) else none := rfl

/-- What a store does: inside data memory it replaces the addressed word in memory, and nothing else. -/
theorem storeWord_eq (s : State) (a v : Word) :
    s.storeWord a v = if wordIndex a < s.dmemWords then
      some { s with dmem := Memory.write s.dmem (wordIndex a) v } else none := rfl

theorem wordIndex_lt (a : Word) : wordIndex a < 2 ^ 30 := by
  have := a.isLt
  simp only [wordIndex, BitVec.toNat_ushiftRight, Nat.shiftRight_eq_div_pow]
  omega

end Sys2Proof.Machine
end

