-- ==== Sys2Proof/Laws/Registers.lean ====
section
/-! SUPPORT. The register file: what a read gives after a write, and that the reads determine the stored registers. -/

namespace Sys2Proof.Machine

/-- Register 0 reads 0 in every state. -/
@[simp] theorem x_zero (s : State) : s.x 0#5 = 0#32 := by
  simp [State.x]

/-- Two register indices other than 0 with one slot are one index. -/
theorem regSlot_inj {i j : RegIdx} (hi : i ≠ 0#5) (hj : j ≠ 0#5) (h : regSlot i = regSlot j) : i = j := by
  have hi' : i.toNat ≠ 0 := fun e => hi (BitVec.eq_of_toNat_eq (by simpa using e))
  have hj' : j.toNat ≠ 0 := fun e => hj (BitVec.eq_of_toNat_eq (by simpa using e))
  simp only [regSlot] at h
  exact BitVec.eq_of_toNat_eq (by omega)

/-- What any register reads after a register write: the written one the value, unless it is register 0. -/
theorem x_writeReg (s : State) (d : RegIdx) (v : Word) (r : RegIdx) :
    (s.writeReg d v).x r = if r = d ∧ d ≠ 0#5 then v else s.x r := by
  by_cases hd : d = 0#5
  · simp [State.writeReg, hd]
  · by_cases hr : r = 0#5
    · have : ¬ (0#5 = d) := fun e => hd e.symm
      simp [State.x, hr, this]
    · by_cases h : r = d
      · subst h
        simp [State.x, State.writeReg, hd]
      · have hs : regSlot d ≠ regSlot r := fun e => h (regSlot_inj hd hr e).symm
        simp [State.x, State.writeReg, hd, hr, h, Vector.getElem_set_ne _ _ hs]

@[simp] theorem x_setPc (s : State) (t : Word) (r : RegIdx) : (s.setPc t).x r = s.x r := rfl

@[simp] theorem x_dmem (s : State) (m : Memory) (r : RegIdx) : ({ s with dmem := m } : State).x r = s.x r := rfl

@[simp] theorem writeReg_zero (s : State) (v : Word) : s.writeReg 0#5 v = s := by
  simp [State.writeReg]

@[simp] theorem x_launch (l : List Word) (n : Nat) (m : Memory) (r : RegIdx) :
    (State.launch l n m).x r = resetRegister := by
  unfold State.x State.launch
  split
  · rfl
  · simp

/-- The register reads determine the stored registers. -/
theorem regs_ext {s t : State} (h : ∀ r, s.x r = t.x r) : s.regs = t.regs := by
  apply Vector.ext
  intro k hk
  have hlt : k + 1 < 32 := by omega
  have hne : (BitVec.ofNat 5 (k + 1)) ≠ 0#5 := fun e => by
    have := congrArg BitVec.toNat e
    simp [Nat.mod_eq_of_lt hlt] at this
  have hslot : regSlot (BitVec.ofNat 5 (k + 1)) = k := by
    simp [regSlot, Nat.mod_eq_of_lt hlt]
  have := h (BitVec.ofNat 5 (k + 1))
  simpa only [State.x, hne, if_false, hslot] using this

end Sys2Proof.Machine
end

