-- ==== Sys2Proof/Laws/Ops.lean ====
section
/-! SUPPORT. What each way an instruction ends can do, said once: if it answers a next state, then which. And the fetch: what
stands at the program counter, and that a placed word is fetched. -/

namespace Sys2Proof.Machine

/-- Writing a register always gives a next state. -/
theorem writeAndAdvance_next {s t : State} {d : RegIdx} {v : Word} (h : writeAndAdvance s d v = .next t) :
    t = (s.writeReg d v).setPc (sequential s.pc) := by
  cases h; rfl

/-- A transfer always gives a next state. -/
theorem transferTo_next {s t : State} {a : Word} (h : transferTo s a = .next t) : t = s.setPc a := by
  cases h; rfl

/-- A load that gives a next state was inside data memory and wrote the word read. -/
theorem loadAndAdvance_next {s t : State} {d : RegIdx} {a : Word} (h : loadAndAdvance s d a = .next t) :
    wordIndex a < s.dmemWords ∧
      t = (s.writeReg d (Memory.read s.dmem (wordIndex a))).setPc (sequential s.pc) := by
  unfold loadAndAdvance at h
  rw [loadWord_eq] at h
  split at h
  · rename_i hv
    split at hv
    · cases hv; exact ⟨‹_›, writeAndAdvance_next h⟩
    · cases hv
  · cases h

/-- A store that gives a next state was inside data memory and replaced the addressed word. -/
theorem storeAndAdvance_next {s t : State} {a v : Word} (h : storeAndAdvance s a v = .next t) :
    wordIndex a < s.dmemWords ∧
      t = ({ s with dmem := Memory.write s.dmem (wordIndex a) v } : State).setPc (sequential s.pc) := by
  unfold storeAndAdvance at h
  rw [storeWord_eq] at h
  split at h
  · rename_i hv
    split at hv
    · cases hv; exact ⟨‹_›, transferTo_next h⟩
    · cases hv
  · cases h

theorem loadAndAdvance_inside {s : State} {d : RegIdx} {a : Word} (h : wordIndex a < s.dmemWords) :
    loadAndAdvance s d a = writeAndAdvance s d (Memory.read s.dmem (wordIndex a)) := by
  simp [loadAndAdvance, loadWord_eq, h]

theorem loadAndAdvance_outside {s : State} {d : RegIdx} {a : Word} (h : ¬ wordIndex a < s.dmemWords) :
    loadAndAdvance s d a = stopDataAccess s a .read := by
  simp [loadAndAdvance, loadWord_eq, h]

theorem storeAndAdvance_inside {s : State} {a v : Word} (h : wordIndex a < s.dmemWords) :
    storeAndAdvance s a v =
      transferTo { s with dmem := Memory.write s.dmem (wordIndex a) v } (sequential s.pc) := by
  simp [storeAndAdvance, storeWord_eq, h]

theorem storeAndAdvance_outside {s : State} {a v : Word} (h : ¬ wordIndex a < s.dmemWords) :
    storeAndAdvance s a v = stopDataAccess s a .write := by
  simp [storeAndAdvance, storeWord_eq, h]

/-! ### The fetch -/

theorem fetch_eq (s : State) : s.fetch = s.imem[wordIndex s.pc]? := rfl

/-- The fetch gives an instruction exactly when `pc` is aligned and the word there decodes to it. -/
theorem fetchDecode_instr {s : State} {i : Instr} :
    fetchDecode s = .instr i ↔ aligned s.pc = true ∧ ∃ w, s.fetch = some w ∧ decode w = .ok i := by
  unfold fetchDecode decodeAt
  split
  · rename_i ha
    split
    · simp_all
    · rename_i w hw
      split <;> simp_all
  · simp_all

/-- A step that gives a next state ran one instruction: the one fetched. -/
theorem step_next {s t : State} (h : step s = .next t) : ∃ i, fetchDecode s = .instr i ∧ exec i s = .next t := by
  unfold step at h
  split at h
  · exact ⟨_, ‹_›, h⟩
  · cases h
  · cases h

theorem step_of_fetchDecode {s : State} {i : Instr} (h : fetchDecode s = .instr i) : step s = exec i s := by
  simp [step, h]

/-- The word placed at an index is the word there. -/
theorem placeWord_get (l : List Word) (k : Nat) (w : Word) : (placeWord l k w)[k]? = some w := by
  induction k generalizing l with
  | zero => cases l <;> simp [placeWord]
  | succ k ih => cases l <;> simp [placeWord, ih]

/-- The placed word is what the next fetch reads. -/
theorem fetch_withFetchWord (s : State) (nbits w : Nat) :
    (s.withFetchWord nbits w).fetch = some (tableWord nbits w) := by
  simp [State.fetch, State.withFetchWord, placeWord_get]

@[simp] theorem withFetchWord_pc (s : State) (nbits w : Nat) : (s.withFetchWord nbits w).pc = s.pc := rfl

end Sys2Proof.Machine
end

