-- ==== Sys2Proof/Laws/PerInstr.lean ====
section
/-! SUPPORT. The family Row: each instruction's encoded word is one of its own row of the opcode table (30_encoding.md
R64). -/

namespace Sys2Proof.Laws.Row

/-- The encoded word's bits under the row's mask are the row's match. -/
def Statement (i : Instr) : Prop := encode i &&& i.rowMask = i.rowMatch

theorem sll (rs rt rd shamt : BitVec 5) : Statement (.sll rs rt rd shamt) :=
  encodeR_row _ rs rt rd shamt

theorem add (rs rt rd shamt : BitVec 5) : Statement (.add rs rt rd shamt) :=
  encodeR_row _ rs rt rd shamt

theorem addu (rs rt rd shamt : BitVec 5) : Statement (.addu rs rt rd shamt) :=
  encodeR_row _ rs rt rd shamt

theorem sub (rs rt rd shamt : BitVec 5) : Statement (.sub rs rt rd shamt) :=
  encodeR_row _ rs rt rd shamt

theorem subu (rs rt rd shamt : BitVec 5) : Statement (.subu rs rt rd shamt) :=
  encodeR_row _ rs rt rd shamt

theorem and (rs rt rd shamt : BitVec 5) : Statement (.and rs rt rd shamt) :=
  encodeR_row _ rs rt rd shamt

theorem or (rs rt rd shamt : BitVec 5) : Statement (.or rs rt rd shamt) :=
  encodeR_row _ rs rt rd shamt

theorem xor (rs rt rd shamt : BitVec 5) : Statement (.xor rs rt rd shamt) :=
  encodeR_row _ rs rt rd shamt

theorem slt (rs rt rd shamt : BitVec 5) : Statement (.slt rs rt rd shamt) :=
  encodeR_row _ rs rt rd shamt

theorem j (address : BitVec 26) : Statement (.j address) :=
  encodeJ_row _ address

theorem beq (rs rt : BitVec 5) (imm : BitVec 16) : Statement (.beq rs rt imm) :=
  encodeI_row _ rs rt imm

theorem bne (rs rt : BitVec 5) (imm : BitVec 16) : Statement (.bne rs rt imm) :=
  encodeI_row _ rs rt imm

theorem addi (rs rt : BitVec 5) (imm : BitVec 16) : Statement (.addi rs rt imm) :=
  encodeI_row _ rs rt imm

theorem addiu (rs rt : BitVec 5) (imm : BitVec 16) : Statement (.addiu rs rt imm) :=
  encodeI_row _ rs rt imm

theorem slti (rs rt : BitVec 5) (imm : BitVec 16) : Statement (.slti rs rt imm) :=
  encodeI_row _ rs rt imm

theorem lui (rs rt : BitVec 5) (imm : BitVec 16) : Statement (.lui rs rt imm) :=
  encodeI_row _ rs rt imm

theorem lw (rs rt : BitVec 5) (imm : BitVec 16) : Statement (.lw rs rt imm) :=
  encodeI_row _ rs rt imm

theorem sw (rs rt : BitVec 5) (imm : BitVec 16) : Statement (.sw rs rt imm) :=
  encodeI_row _ rs rt imm

end Sys2Proof.Laws.Row
end

