-- ==== Sys2Proof/Laws/Signals.lean ====
section
/-! SUPPORT. The boundary signals with the control vector already found, so that no proof rewrites under the Control Unit. -/

namespace Sys2Proof.Machine

/-- The outputs of a cycle, given what the Field Extractor and the Control Unit answer for the word. -/
theorem boundarySignals_of {s : State} {w rdata alu : Word} {f : Fields} {c : Ctrl} {ok : Bool}
    (hf : fieldExtractor w = f) (hc : controlUnit f = (c, ok))
    (ha : aluResult c (selectA c (s.x f.rs) (s.x f.rt)) (selectB c f (s.x f.rt)) = alu) :
    boundarySignals s w rdata =
      { decodeOk := ok, dmemRe := c.memRead, dmemWe := c.memWrite, dmemIndex := alu.extractLsb' 2 30
        dmemWdata := s.x f.rt, memResult := if c.memRead then rdata else 0#32
        nextPc := nextPc c f (zeroFlag alu) s.pc, rfWe := c.regWrite && writeBackDest c f != 0#5
        rfWaddr := writeBackDest c f
        rfWdata := if c.memToReg then (if c.memRead then rdata else 0#32) else alu } := by
  subst ha
  simp only [boundarySignals, hf, hc]

/-- The data index of the boundary is the word index of the ALU result. -/
theorem dmemIndex_toNat (alu : Word) : (alu.extractLsb' 2 30).toNat = wordIndex alu := by
  have := alu.isLt
  simp only [wordIndex, BitVec.extractLsb'_toNat, BitVec.toNat_ushiftRight, Nat.shiftRight_eq_div_pow]
  omega

end Sys2Proof.Machine
end

