-- ==== Sys2Proof/Tests/Slice0.lean ====
section
/-! SUPPORT. Tests: the assembler's checks, words written out from the encoding tables, single steps with expected results of
95_test_vectors.md, and a witness for the hypotheses of every statement that has some. -/

namespace Sys2Proof.Tests

open Sys2Proof Sys2Proof.Machine

/-! ### Helpers -/

/-- The reset state with some registers and data words set, at an address. -/
def start (pc : Word) (regs : List (RegIdx × Word)) (mem : Memory) : State :=
  (regs.foldl (fun s c => s.writeReg c.1 c.2) (State.launch [] 1024 mem)).setPc pc

/-- One step from such a state, with a word placed at its address. -/
def run (pc : Word) (regs : List (RegIdx × Word)) (mem : Memory) (w : Word) : Result :=
  step ((start pc regs mem).withFetchWord 32 w.toNat)

/-- What a register reads after a step, with the address it goes on at. -/
def reg (i : RegIdx) (r : Result) : Option (Word × Word) := (nextState? r).map (fun t => (t.x i, t.pc))

/-- What a data word reads after a step, with the address it goes on at. -/
def data (k : Nat) (r : Result) : Option (Word × Word) := (nextState? r).map (fun t => (Memory.read t.dmem k, t.pc))

/-- The address a step goes on at. -/
def goesTo (r : Result) : Option Word := (nextState? r).map State.pc

/-- A step that ends in a next state. -/
def completes (r : Result) : Bool := (nextState? r).isSome

theorem completes_iff (r : Result) (h : completes r = true) : ∃ t, r = .next t := by
  cases r with
  | next t => exact ⟨t, rfl⟩
  | fault _ => cases h
  | refused _ => cases h

/-! ### The assembler's checks (30_encoding.md R58) -/

theorem test_asm_accepts_the_limits :
    (Asm.sll 31 31 31).wellFormed 0#32 = true ∧ (Asm.reg .add 31 31 31).wellFormed 0#32 = true ∧
    (Asm.imm .addi 31 31 32767).wellFormed 0#32 = true ∧ (Asm.imm .slti 0 0 (-32768)).wellFormed 0#32 = true ∧
    (Asm.lui 31 0xFFFF).wellFormed 0#32 = true ∧ (Asm.lw 2 (-32768) 1).wellFormed 0#32 = true ∧
    (Asm.beq 1 2 0x00000004).wellFormed 0x00020000#32 = true ∧ (Asm.bne 1 2 0x00020100).wellFormed 0x00000100#32 = true ∧
    (Asm.j 0x10000000).wellFormed 0x0FFFFFFC#32 = true := by decide

theorem test_asm_refuses_register_32 :
    (Asm.sll 32 0 0).wellFormed 0#32 = false ∧ (Asm.sll 0 32 0).wellFormed 0#32 = false ∧
    (Asm.reg .or 32 0 0).wellFormed 0#32 = false ∧ (Asm.reg .or 0 32 0).wellFormed 0#32 = false ∧
    (Asm.reg .or 0 0 32).wellFormed 0#32 = false ∧ (Asm.beq 32 0 4).wellFormed 0#32 = false ∧
    (Asm.beq 0 32 4).wellFormed 0#32 = false ∧ (Asm.bne 32 0 4).wellFormed 0#32 = false ∧
    (Asm.bne 0 32 4).wellFormed 0#32 = false ∧ (Asm.imm .addiu 32 0 0).wellFormed 0#32 = false ∧
    (Asm.imm .addiu 0 32 0).wellFormed 0#32 = false ∧ (Asm.lui 32 0).wellFormed 0#32 = false ∧
    (Asm.lw 32 0 0).wellFormed 0#32 = false ∧ (Asm.lw 0 0 32).wellFormed 0#32 = false ∧
    (Asm.sw 32 0 0).wellFormed 0#32 = false ∧ (Asm.sw 0 0 32).wellFormed 0#32 = false := by decide

theorem test_asm_refuses_shamt_32 : (Asm.sll 2 1 32).wellFormed 0#32 = false := by decide

theorem test_asm_refuses_immediates :
    (Asm.imm .addi 2 1 32768).wellFormed 0#32 = false ∧ (Asm.imm .slti 2 1 (-32769)).wellFormed 0#32 = false ∧
    (Asm.lui 2 0x10000).wellFormed 0#32 = false ∧ (Asm.lw 2 32768 1).wellFormed 0#32 = false ∧
    (Asm.sw 2 (-32769) 1).wellFormed 0#32 = false := by decide

/-- A label that is no multiple of 4, one too far either way, one that is no address, one reached only by wrapping. -/
theorem test_asm_refuses_labels :
    (Asm.beq 1 2 0x102).wellFormed 0x00000100#32 = false ∧ (Asm.beq 1 2 0x00020104).wellFormed 0x00000100#32 = false ∧
    (Asm.bne 1 2 0x00000000).wellFormed 0x00020000#32 = false ∧ (Asm.bne 1 2 0x100000000).wellFormed 0xFFFFFFF0#32 = false ∧
    (Asm.beq 1 2 0xFFFFFFFC).wellFormed 0x00000000#32 = false := by decide

/-- A target that is no multiple of 4, one in another block of 256 MiB, one that is no address. -/
theorem test_asm_refuses_targets :
    (Asm.j 0x41).wellFormed 0#32 = false ∧ (Asm.j 0x10000000).wellFormed 0x0FFFFFF8#32 = false ∧
    (Asm.j 0x100000040).wellFormed 0#32 = false := by decide

/-- The assembly of 95_test_vectors.md V8 to V11, and `nop` (30_encoding.md R59). -/
theorem test_asm_words :
    (Asm.sll 2 1 4).assemble 0#32 = some 0x00011100#32 ∧ (Asm.reg .add 3 1 2).assemble 0#32 = some 0x00221820#32 ∧
    (Asm.j 0x40).assemble 0#32 = some 0x08000010#32 ∧ (Asm.beq 1 2 0x110).assemble 0x00000100#32 = some 0x10220003#32 ∧
    (Asm.bne 1 2 0xFC).assemble 0x00000100#32 = some 0x1422FFFE#32 ∧
    (Asm.imm .addi 2 1 (-1)).assemble 0#32 = some 0x2022FFFF#32 ∧ (Asm.lui 2 0x1234).assemble 0#32 = some 0x3C021234#32 ∧
    (Asm.lw 2 (-4) 1).assemble 0#32 = some 0x8C22FFFC#32 ∧ (Asm.sw 2 8 1).assemble 0#32 = some 0xAC220008#32 ∧
    Asm.nop.assemble 0#32 = some 0x00000000#32 ∧ (Asm.sll 2 1 32).assemble 0#32 = none := by decide

/-! ### Decoding: words written out field by field from 30_encoding.md R52, R55, R56 -/

theorem test_decode_sll : decode 0b000000_00000_00001_00010_00100_000000#32 = .ok (.sll 0 1 2 4) := by decide
theorem test_decode_add : decode 0b000000_00001_00010_00011_00000_100000#32 = .ok (.add 1 2 3 0) := by decide
theorem test_decode_addu : decode 0b000000_00001_00010_00011_00000_100001#32 = .ok (.addu 1 2 3 0) := by decide
theorem test_decode_sub : decode 0b000000_00001_00010_00011_00000_100010#32 = .ok (.sub 1 2 3 0) := by decide
theorem test_decode_subu : decode 0b000000_00001_00010_00011_00000_100011#32 = .ok (.subu 1 2 3 0) := by decide
theorem test_decode_and : decode 0b000000_00001_00010_00011_00000_100100#32 = .ok (.and 1 2 3 0) := by decide
theorem test_decode_or : decode 0b000000_00001_00010_00011_00000_100101#32 = .ok (.or 1 2 3 0) := by decide
theorem test_decode_xor : decode 0b000000_00001_00010_00011_00000_100110#32 = .ok (.xor 1 2 3 0) := by decide
theorem test_decode_slt : decode 0b000000_00001_00010_00011_11111_101010#32 = .ok (.slt 1 2 3 31) := by decide
theorem test_decode_j : decode 0b000010_11000000000000000000010000#32 = .ok (.j 0x3000010) := by decide
theorem test_decode_beq : decode 0b000100_00001_00010_0000000000000011#32 = .ok (.beq 1 2 3) := by decide
theorem test_decode_bne : decode 0b000101_00001_00010_1111111111111110#32 = .ok (.bne 1 2 0xFFFE) := by decide
theorem test_decode_addi : decode 0b001000_00001_00010_0000000000001010#32 = .ok (.addi 1 2 10) := by decide
theorem test_decode_addiu : decode 0b001001_00001_00010_1111111111111111#32 = .ok (.addiu 1 2 0xFFFF) := by decide
theorem test_decode_slti : decode 0b001010_00001_00010_0000000000001010#32 = .ok (.slti 1 2 10) := by decide
theorem test_decode_lui : decode 0b001111_11111_00010_0001001000110100#32 = .ok (.lui 31 2 0x1234) := by decide
theorem test_decode_lw : decode 0b100011_00001_00010_0000000000001000#32 = .ok (.lw 1 2 8) := by decide
theorem test_decode_sw : decode 0b101011_00001_00010_1111111111111100#32 = .ok (.sw 1 2 0xFFFC) := by decide

/-- The refusals of 95_test_vectors.md V2; their names are the model's (log 15). -/
theorem test_decode_refuses_functs :
    decode 0x00000001#32 = .error (.unsupportedFunct 0x01) ∧ decode 0x0000001F#32 = .error (.unsupportedFunct 0x1F) ∧
    decode 0x00221827#32 = .error (.unsupportedFunct 0x27) ∧ decode 0x00221829#32 = .error (.unsupportedFunct 0x29) ∧
    decode 0x0022182B#32 = .error (.unsupportedFunct 0x2B) ∧ decode 0x0000003F#32 = .error (.unsupportedFunct 0x3F) := by
  decide

theorem test_decode_refuses_opcodes :
    decode 0x04000000#32 = .error (.unsupportedOpcode 0x01) ∧ decode 0x0C000010#32 = .error (.unsupportedOpcode 0x03) ∧
    decode 0x18200003#32 = .error (.unsupportedOpcode 0x06) ∧ decode 0x2C22000A#32 = .error (.unsupportedOpcode 0x0B) ∧
    decode 0x3421FFFF#32 = .error (.unsupportedOpcode 0x0D) ∧ decode 0x38220001#32 = .error (.unsupportedOpcode 0x0E) ∧
    decode 0x88220000#32 = .error (.unsupportedOpcode 0x22) ∧ decode 0xA8220000#32 = .error (.unsupportedOpcode 0x2A) ∧
    decode 0xFC000000#32 = .error (.unsupportedOpcode 0x3F) := by decide

/-- The fields of 0x1422FFFE (95_test_vectors.md V1). -/
theorem test_fields :
    fieldExtractor 0x1422FFFE#32 = ⟨0x05, 1, 2, 31, 31, 0x3E, 0xFFFE, 0xFFFFFFFE#32, 0x022FFFE⟩ := by decide

/-- Each row's word runs as the first instruction after reset. -/
theorem test_rows_run : ∀ r ∈ opcodeTable,
    (decodeTableWord 32 r.value.toNat).map Instr.rowMatch = some r.value ∧
    completes (step (State.reset.withFetchWord 32 r.value.toNat)) = true := by decide

/-- With no program loaded the first step stops (log 3). -/
theorem test_reset_fetches_nothing : faultOf? (step State.reset) = some (.fetchOutOfRange 0#32) := by decide

/-! ### The units (95_test_vectors.md V3 to V7) -/

/-- V3: rs_val 0x11111111, rt_val 0x22222222, shamt 4, imm16 0x8001. -/
theorem test_selectors :
    let f : Fields := ⟨0, 0, 0, 0, 4, 0, 0x8001, 0xFFFF8001#32, 0⟩
    let a := 0x11111111#32
    let b := 0x22222222#32
    (selectA ctrlShift a b, selectB ctrlShift f b) = (0x22222222#32, 0x00000004#32) ∧
    (selectA ctrlAdd a b, selectB ctrlAdd f b) = (0x11111111#32, 0x22222222#32) ∧
    (selectA ctrlAddImm a b, selectB ctrlAddImm f b) = (0x11111111#32, 0xFFFF8001#32) ∧
    (selectA ctrlLui a b, selectB ctrlLui f b) = (0x00000000#32, 0x80010000#32) ∧
    (let both : Ctrl := { aluOp := .shift, upperImm := true }
     (selectA both a b, selectB both f b) = (0x00000000#32, 0x00000004#32)) := by decide

/-- V4, the rows where a slip shows: the most negative operand, the shift's mask, the negated operand, the unknown code. -/
theorem test_alu :
    aluResult ctrlSub 0x00000000#32 0x80000000#32 = 0x80000000#32 ∧ aluResult ctrlSub 0x80000000#32 1#32 = 0x7FFFFFFF#32 ∧
    aluResult ctrlSlt 0x80000000#32 0x00000001#32 = 1#32 ∧ aluResult ctrlSlt 0x7FFFFFFF#32 0x80000000#32 = 0#32 ∧
    aluResult ctrlShift 0xDEADBEEF#32 0x00000020#32 = 0xDEADBEEF#32 ∧
    aluResult ctrlShift 0xDEADBEEF#32 0x00000021#32 = 0xBD5B7DDE#32 ∧
    aluResult { aluOp := .and, negate := true } 0x000000FF#32 1#32 = 0x000000FF#32 ∧
    aluResult { aluOp := .or, negate := true } 0#32 1#32 = 0xFFFFFFFF#32 ∧
    aluResult { aluOp := .xor, negate := true } 0#32 1#32 = 0xFFFFFFFF#32 ∧
    aluResult { aluOp := .shift, negate := true } 1#32 4#32 = 0x10#32 ∧
    aluResult { aluOp := .code7, negate := true } 1#32 2#32 = 0#32 ∧
    zeroFlag (aluResult ctrlSub 5#32 5#32) = true ∧ zeroFlag (aluResult ctrlAdd 0x7FFFFFFF#32 1#32) = false := by decide

/-- V5, both enables: the old word is read, then the new one is stored; and the fault at the first index outside. -/
theorem test_memory_stage :
    let s := start 0#32 [] [(0, 0xAAAA5555#32), (1, 0xBBBB6666#32), (1023, 9#32)]
    (memoryStage { memRead := true, memWrite := true } s 0x00000004#32 0x12345678#32).map
      (fun p => (p.1, Memory.read p.2.dmem 1)) = .ok (0xBBBB6666#32, 0x12345678#32) ∧
    memoryRead ctrlLoad s 0x00000FFF#32 = some 9#32 ∧ memoryRead ctrlLoad s 0x00001000#32 = none ∧
    memoryRead ctrlAdd s 0xFFFFFFFC#32 = some 0#32 := by decide

/-- V6. -/
theorem test_next_pc :
    let f (imm : BitVec 16) (a : BitVec 26) : Fields := ⟨0, 0, 0, 0, 0, 0, imm, sext32 imm, a⟩
    nextPc ctrlAdd (f 0 0) true 0xFFFFFFFC#32 = 0x00000000#32 ∧ nextPc ctrlBeq (f 0x7FFF 0) true 0x100#32 = 0x00020100#32 ∧
    nextPc ctrlBeq (f 0x8000 0) true 0x100#32 = 0xFFFE0104#32 ∧ nextPc ctrlBeq (f 3 0) false 0x100#32 = 0x104#32 ∧
    nextPc ctrlBne (f 0xFFFE 0) false 0x100#32 = 0xFC#32 ∧ nextPc ctrlJump (f 0 0) true 0x0FFFFFFC#32 = 0x10000000#32 ∧
    nextPc ctrlJump (f 0 1) true 0x0FFFFFF8#32 = 0x00000004#32 ∧ nextPc ctrlJump (f 0 5) false 0xFFFFFFFC#32 = 0x14#32 ∧
    nextPc { jump := true, branch := true } (f 3 0x10) true 0x100#32 = 0x40#32 := by decide

/-- V7: rd = 3, rt = 2. -/
theorem test_write_back :
    let f : Fields := ⟨0, 0, 2, 3, 0, 0, 0, 0, 0⟩
    let w (c : Ctrl) (g : Fields) (i : RegIdx) := (writeBack c g 0xAAAAAAAA#32 0xBBBBBBBB#32 State.reset).x i
    w ctrlAdd f 3 = 0xAAAAAAAA#32 ∧ w ctrlAdd f 2 = 0#32 ∧ w ctrlAddImm f 2 = 0xAAAAAAAA#32 ∧ w ctrlLoad f 2 = 0xBBBBBBBB#32 ∧
    w { regWrite := true, regDst := true, memToReg := true } f 3 = 0xBBBBBBBB#32 ∧ w ctrlStore f 2 = 0#32 ∧
    w ctrlAdd { f with rd := 0 } 0 = 0#32 := by decide

/-! ### One step of each instruction (95_test_vectors.md V8 to V12) -/

theorem test_sll_drops_high_bits : reg 1 (run 0#32 [(1, 0xFFFFFFFF#32)] [] 0x00010FC0#32) = some (0x80000000#32, 4#32) := by decide
theorem test_sll_ignores_rs :
    reg 2 (run 0#32 [(1, 1#32), (31, 0xDEADBEEF#32)] [] 0x03E11100#32) = some (0x10#32, 4#32) := by decide
theorem test_add_wraps :
    reg 3 (run 0#32 [(1, 0x7FFFFFFF#32), (2, 1#32)] [] 0x00221820#32) = some (0x80000000#32, 4#32) := by decide
theorem test_add_in_place : reg 1 (run 0#32 [(1, 0x40000001#32)] [] 0x00210820#32) = some (0x80000002#32, 4#32) := by decide
theorem test_addu : reg 3 (run 0#32 [(1, 0xFFFFFFFF#32), (2, 2#32)] [] 0x00221821#32) = some (1#32, 4#32) := by decide
theorem test_sub_most_negative :
    reg 3 (run 0#32 [(1, 0#32), (2, 0x80000000#32)] [] 0x00221822#32) = some (0x80000000#32, 4#32) := by decide
theorem test_sub : reg 3 (run 0#32 [(1, 5#32), (2, 10#32)] [] 0x00221822#32) = some (0xFFFFFFFB#32, 4#32) := by decide
theorem test_subu : reg 3 (run 0#32 [(1, 3#32), (2, 0xFFFFFFF9#32)] [] 0x00221823#32) = some (10#32, 4#32) := by decide
theorem test_and :
    reg 3 (run 0#32 [(1, 0xF0F0F0F0#32), (2, 0xFF00FF00#32)] [] 0x00221824#32) = some (0xF000F000#32, 4#32) := by decide
theorem test_or :
    reg 3 (run 0#32 [(1, 0xF0F0F0F0#32), (2, 0xFF00FF00#32)] [] 0x00221825#32) = some (0xFFF0FFF0#32, 4#32) := by decide
theorem test_xor :
    reg 3 (run 0#32 [(1, 0xF0F0F0F0#32), (2, 0xFF00FF00#32)] [] 0x00221826#32) = some (0x0FF00FF0#32, 4#32) := by decide
theorem test_slt_is_signed :
    reg 3 (run 0#32 [(1, 3#32), (2, 0xFFFFFFF9#32), (3, 7#32)] [] 0x0022182A#32) = some (0#32, 4#32) := by decide
theorem test_slt_where_subtraction_overflows :
    reg 3 (run 0#32 [(1, 0x80000000#32), (2, 1#32)] [] 0x0022182A#32) = some (1#32, 4#32) := by decide
theorem test_j_takes_the_block_of_the_next :
    goesTo (exec (.j 0) (start 0x0FFFFFFC#32 [] [])) = some 0x10000000#32 := by decide
theorem test_j_to_itself : goesTo (run 0x18#32 [] [] 0x08000006#32) = some 0x18#32 := by decide
theorem test_beq_taken : goesTo (run 0x100#32 [(1, 7#32), (2, 7#32)] [] 0x10220003#32) = some 0x110#32 := by decide
theorem test_beq_not_taken :
    goesTo (run 0x100#32 [(1, 0#32), (2, 0x80000000#32)] [] 0x10220001#32) = some 0x104#32 := by decide
theorem test_bne_taken : goesTo (run 0x100#32 [(1, 7#32), (2, 8#32)] [] 0x1422FFFE#32) = some 0xFC#32 := by decide
theorem test_bne_not_taken : goesTo (run 0x100#32 [(1, 9#32)] [] 0x14210005#32) = some 0x104#32 := by decide
theorem test_addi_sign_extends : reg 2 (run 0#32 [(1, 0#32)] [] 0x20228000#32) = some (0xFFFF8000#32, 4#32) := by decide
theorem test_addi_to_register_zero : reg 0 (run 0#32 [(1, 5#32)] [] 0x20200064#32) = some (0#32, 4#32) := by decide
theorem test_addiu_sign_extends : reg 2 (run 0#32 [] [] 0x2402FFFF#32) = some (0xFFFFFFFF#32, 4#32) := by decide
theorem test_slti_is_signed :
    reg 2 (run 0#32 [(1, 0x0000FFFE#32), (2, 9#32)] [] 0x2822FFFF#32) = some (0#32, 4#32) := by decide
theorem test_slti_less : reg 2 (run 0#32 [(1, 0x80000000#32)] [] 0x28228000#32) = some (1#32, 4#32) := by decide
theorem test_lui_ignores_rs : reg 2 (run 0#32 [(31, 0xDEADBEEF#32)] [] 0x3FE21234#32) = some (0x12340000#32, 4#32) := by decide
theorem test_lui_fills_the_word : reg 2 (run 0#32 [(2, 77#32)] [] 0x3C02FFFF#32) = some (0xFFFF0000#32, 4#32) := by decide
theorem test_lw_old_base : reg 1 (run 0#32 [(1, 8#32)] [(2, 0x77#32)] 0x8C210000#32) = some (0x77#32, 4#32) := by decide
theorem test_lw_last_word : reg 2 (run 0#32 [(1, 0xFFC#32)] [(1023, 9#32)] 0x8C220003#32) = some (9#32, 4#32) := by decide
theorem test_sw_wraps : data 1 (run 0#32 [(1, 0xFFFFFFFC#32), (2, 0x55#32)] [] 0xAC220008#32) = some (0x55#32, 4#32) := by decide
theorem test_sw_zero_removes_the_word :
    (nextState? (run 0#32 [(1, 8#32)] [(2, 0x77#32)] 0xAC200000#32)).map State.dmem = some [] := by decide

/-- V12 and V11: the faults, each with what it records. -/
theorem test_faults :
    faultOf? (step (start 0x0C#32 [] [])) = some (.fetchOutOfRange 0x0C#32) ∧
    faultOf? (run 0#32 [] [] 0x0000000C#32) = some (.decodeFailure 0#32 0x0000000C#32) ∧
    faultOf? (run 0#32 [] [] 0xFFFFFFFF#32) = some (.decodeFailure 0#32 0xFFFFFFFF#32) ∧
    faultOf? (run 0#32 [] [] 0x8C02FFFC#32) = some (.dataAccessOutOfRange 0#32 0xFFFFFFFC#32 .read) ∧
    faultOf? (run 0#32 [(1, 0x1000#32)] [] 0x8C200000#32) = some (.dataAccessOutOfRange 0#32 0x1000#32 .read) ∧
    faultOf? (run 0#32 [(2, 1#32)] [] 0xAC021000#32) = some (.dataAccessOutOfRange 0#32 0x1000#32 .write) := by decide

theorem test_misaligned_launch_is_refused :
    step ((start 2#32 [] []).withFetchWord 32 0) = .refused .launchPcMisaligned := by rfl

theorem test_cause_codes :
    Fault.code (.decodeFailure 0#32 0#32) = 1 ∧ Fault.code (.fetchOutOfRange 0#32) = 2 ∧
    Fault.code (.dataAccessOutOfRange 0#32 0#32 .read) = 3 := by decide

/-! ### Witnesses: each statement's hypotheses, met together, at the boundary of each clause -/

theorem witness_DecodeThenEncode : decode 0x2022000A#32 = .ok (.addi 1 2 10) := by decide

theorem witness_DecodesExactlyTableWords :
    OpcodeRow.mk 0xFC00003F#32 0x00000000#32 ∈ opcodeTable ∧
    (OpcodeRow.mk 0xFC00003F#32 0x00000000#32).accepts 0x03FFFFC0#32 = true ∧
    decode 0x03FFFFC0#32 = .ok (.sll 31 31 31 31) := by decide

/-- `imm16` 0x7FFF, 0x8000. -/
theorem witness_ImmediateSignExtension :
    (fieldExtractor 0x20227FFF#32).imm16.toNat < 0x8000 ∧ 0x8000 ≤ (fieldExtractor 0x20228000#32).imm16.toNat := by decide

theorem witness_IgnoredBitsHaveNoEffect :
    (decode 0x00011100#32 = .ok (.sll 0 1 2 4) ∧
      (0x00011100#32 ^^^ 0x03E11100#32) &&& ~~~ (Instr.sll 0 1 2 4).ignoredBits = 0#32) ∧
    (decode 0x00221820#32 = .ok (.add 1 2 3 0) ∧
      (0x00221820#32 ^^^ 0x00221FE0#32) &&& ~~~ (Instr.add 1 2 3 0).ignoredBits = 0#32) ∧
    (decode 0x3C021234#32 = .ok (.lui 0 2 0x1234) ∧
      (0x3C021234#32 ^^^ 0x3FE21234#32) &&& ~~~ (Instr.lui 0 2 0x1234).ignoredBits = 0#32) := by decide

/-- The farthest label either way; a target across the 256 MiB boundary. -/
theorem witness_AssembledTransferReachesLabel :
    (let s := start 0x00020000#32 [(1, 7#32), (2, 7#32)] []
     s.pc.toNat % 4 = 0 ∧ (Asm.beq 1 2 0x00000004).wellFormed s.pc = true ∧ s.x (.ofNat 5 1) = s.x (.ofNat 5 2)) ∧
    (let s := start 0x00000100#32 [(1, 7#32), (2, 8#32)] []
     s.pc.toNat % 4 = 0 ∧ (Asm.bne 1 2 0x00020100).wellFormed s.pc = true ∧ s.x (.ofNat 5 1) ≠ s.x (.ofNat 5 2)) ∧
    (Asm.j 0x10000000).wellFormed (start 0x0FFFFFFC#32 [] []).pc = true := by decide

theorem witness_ControlUnitAgreesWithDecoder :
    decode 0x0022182A#32 = .ok (.slt 1 2 3 0) ∧ decode 0x0022182B#32 = .error (.unsupportedFunct 0x2B) ∧
    decode 0x3421FFFF#32 = .error (.unsupportedOpcode 0x0D) := by decide

/-- A row for each implication: regWrite, shift, upperImm, memRead with memToReg, negate, notEqual, and a failure. -/
theorem witness_ControlTableInvariants :
    (controlUnit (fieldExtractor 0x00011100#32) = (ctrlShift, true) ∧ ctrlShift.aluOp = .shift ∧ ctrlShift.regWrite = true) ∧
    (controlUnit (fieldExtractor 0x3C021234#32) = (ctrlLui, true) ∧ ctrlLui.upperImm = true) ∧
    (controlUnit (fieldExtractor 0x8C220008#32) = (ctrlLoad, true) ∧ ctrlLoad.memRead = true ∧ ctrlLoad.memToReg = true) ∧
    (controlUnit (fieldExtractor 0x1422FFFE#32) = (ctrlBne, true) ∧ ctrlBne.negate = true ∧ ctrlBne.notEqual = true) ∧
    controlUnit (fieldExtractor 0x0000000C#32) = (Ctrl.inert, false) := by decide

/-- Rows of the table for each clause, and the vector with both tests set. -/
theorem witness_SelectorsFollowPrecedence :
    ctrlLui.upperImm = true ∧ (ctrlShift.upperImm = false ∧ ctrlShift.aluOp = .shift) ∧
    (ctrlAdd.upperImm = false ∧ ctrlAdd.aluOp ≠ .shift ∧ ctrlAdd.aluSrc = false) ∧
    (ctrlAddImm.aluOp ≠ .shift ∧ ctrlAddImm.upperImm = false ∧ ctrlAddImm.aluSrc = true) ∧
    (ctrlLui.aluOp ≠ .shift ∧ ctrlLui.upperImm = true) ∧
    (let both : Ctrl := { aluOp := .shift, upperImm := true }; both.upperImm = true ∧ both.aluOp = .shift) := by decide

theorem witness_AluOperations :
    ctrlAnd.aluOp = .and ∧ ctrlOr.aluOp = .or ∧ ctrlXor.aluOp = .xor ∧ ctrlSub.aluOp = .add ∧ ctrlSub.negate = true ∧
    ctrlSlt.aluOp = .slt ∧ ctrlShift.aluOp = .shift ∧ ctrlShift.negate = false := by decide

theorem witness_ZeroFlagAndUnrecognisedCode :
    ctrlAdd.branch = false ∧
    (let c : Ctrl := { aluOp := .code6 }
     c.aluOp ≠ .and ∧ c.aluOp ≠ .or ∧ c.aluOp ≠ .add ∧ c.aluOp ≠ .slt ∧ c.aluOp ≠ .xor ∧ c.aluOp ≠ .shift) ∧
    (let c : Ctrl := { aluOp := .code7 }
     c.aluOp ≠ .and ∧ c.aluOp ≠ .or ∧ c.aluOp ≠ .add ∧ c.aluOp ≠ .slt ∧ c.aluOp ≠ .xor ∧ c.aluOp ≠ .shift) := by decide

theorem witness_NegateAndAddIsSubtraction : ctrlSub.aluOp = .add ∧ ctrlSub.negate = true := by decide

/-- The last word inside data memory, the first address outside, and no enable at all. -/
theorem witness_MemoryStageReadsThenWrites :
    (0x00000FFF#32).toNat / 4 < State.reset.dmemWords ∧ (ctrlAdd.memRead = false ∧ ctrlAdd.memWrite = false) ∧
    (State.reset.dmemWords ≤ (0x00001000#32).toNat / 4 ∧ ctrlLoad.memRead = true) ∧
    (State.reset.dmemWords ≤ (0x00001000#32).toNat / 4 ∧ ctrlStore.memRead = false ∧ ctrlStore.memWrite = true) ∧
    (State.reset.dmemWords ≤ (0xFFFFFFFF#32).toNat / 4) := by decide

theorem witness_BranchDecision : ctrlBne.notEqual = true ∧ ctrlBeq.notEqual = false := by decide

theorem witness_NextPcPriority :
    (fieldExtractor 0x10228000#32).imm32 = sext32 (fieldExtractor 0x10228000#32).imm16 ∧ ctrlJump.jump = true ∧
    (ctrlBeq.jump = false ∧ ctrlBeq.branch = true ∧ branchTaken ctrlBeq true = true) ∧
    (ctrlAdd.jump = false ∧ ctrlAdd.branch = false) ∧ (ctrlBeq.jump = false ∧ branchTaken ctrlBeq false = false) := by decide

theorem witness_NextPcStaysAligned :
    (0xFFFFFFFC#32).toNat % 4 = 0 ∧ (start 2#32 [] []).pc.toNat % 4 ≠ 0 := by decide

theorem witness_WriteBackUnit :
    ctrlStore.regWrite = false ∧ ctrlAdd.regWrite = true ∧ ctrlLoad.regWrite = true ∧
    memoryStage ctrlLoad State.reset 0x00000FFC#32 5#32 = .ok (0#32, State.reset) := by decide

/-- A register write, a discarded one, a load and a store, with the word that stands at the data index. -/
theorem witness_SignalsSayWhatIsCommitted :
    (∃ t, cycleWord State.reset 0x2022000A#32 = .next t) ∧ (∃ t, cycleWord State.reset 0x0022002A#32 = .next t) ∧
    (∃ t, cycleWord State.reset 0x8C020FFC#32 = .next t) ∧ (∃ t, cycleWord State.reset 0xAC020FFC#32 = .next t) ∧
    (0#32 = Memory.read State.reset.dmem (boundarySignals State.reset 0x2022000A#32 0#32).dmemIndex.toNat ∧
      0#32 = Memory.read State.reset.dmem (boundarySignals State.reset 0x8C020FFC#32 0#32).dmemIndex.toNat) :=
  ⟨completes_iff _ (by decide), completes_iff _ (by decide), completes_iff _ (by decide), completes_iff _ (by decide),
    by decide⟩

theorem witness_InertVectorIsNotRun : (controlUnit (fieldExtractor 0x0000000C#32)).2 = false := by decide

theorem witness_StepIsTheDatapathCycle :
    State.reset.pc.toNat % 4 = 0 ∧ (start 0xFFFFFFFC#32 [] []).pc.toNat % 4 = 0 := by decide

/-- A state that meets the invariant, with a word at the last index, and a store to that index from it. -/
theorem witness_EveryStepKeepsInvariant :
    let s := (start 0#32 [(2, 5#32)] [(1023, 9#32)]).withFetchWord 32 0xAC020FFC
    Inv s ∧ ∃ t, step s = .next t :=
  ⟨⟨by decide, by decide, by decide, by decide, by decide⟩, completes_iff _ (by decide)⟩

/-- The smallest and the largest data memory. -/
theorem witness_LaunchMeetsInvariant :
    (([0#32] : List Word).length ≤ 2 ^ 30 ∧ 1 ≤ 1 ∧ 1 ≤ 2 ^ 30 ∧ Memory.wf [(0, 1#32)] ∧
      ∀ c ∈ ([(0, 1#32)] : Memory), c.1 < 1) ∧
    (1 ≤ 2 ^ 30 ∧ 2 ^ 30 ≤ 2 ^ 30 ∧ Memory.wf [(0, 1#32), (2 ^ 30 - 1, 2#32)] ∧
      ∀ c ∈ ([(0, 1#32), (2 ^ 30 - 1, 2#32)] : Memory), c.1 < 2 ^ 30) := by decide

theorem witness_StepRunsDecodedInstr :
    let s := State.reset.withFetchWord 32 0x2022000A
    s.pc.toNat % 4 = 0 ∧ s.imem[s.pc.toNat / 4]? = some 0x2022000A#32 ∧ decode 0x2022000A#32 = .ok (.addi 1 2 10) := by decide

/-- Each kind of stop, at a state whose `pc` is a multiple of 4. -/
theorem witness_WhenAStepStops :
    State.reset.pc.toNat % 4 = 0 ∧ step State.reset = .fault (.fetchOutOfRange 0#32) ∧
    run 0#32 [] [] 0x0000000C#32 = .fault (.decodeFailure 0#32 0x0000000C#32) ∧
    run 0#32 [] [] 0x8C021000#32 = .fault (.dataAccessOutOfRange 0#32 0x1000#32 .read) ∧
    run 0#32 [] [] 0xAC021000#32 = .fault (.dataAccessOutOfRange 0#32 0x1000#32 .write) :=
  ⟨by decide, rfl, rfl, rfl, rfl⟩

/-- An access at the last word. -/
theorem witness_NoOtherErrorExists :
    (let f := fieldExtractor 0x8C020FFF#32
     ctrlLoad.memRead = true ∧ (aluResult ctrlLoad (selectA ctrlLoad (State.reset.x f.rs) (State.reset.x f.rt))
       (selectB ctrlLoad f (State.reset.x f.rt))).toNat / 4 < State.reset.dmemWords) ∧
    reachesData (.add 1 2 3 0) = false := by decide

theorem witness_FrameOfEveryInstr :
    ((∃ t, exec (.lw 0 2 0xFFF) State.reset = .next t) ∧ destination? (.lw 0 2 0xFFF) ≠ some 1) ∧
    ((∃ t, exec (.sw 0 2 0xFFF) State.reset = .next t) ∧ storedIndex? (.sw 0 2 0xFFF) State.reset ≠ some 1022 ∧
      destination? (.sw 0 2 0xFFF) ≠ some 2) :=
  ⟨⟨completes_iff _ (by decide), by decide⟩, completes_iff _ (by decide), by decide, by decide⟩

theorem witness_StoresNeverReachFetch : ∃ t, run 0#32 [(2, 5#32)] [] 0xAC020000#32 = .next t := completes_iff _ (by decide)

/-- A store, kept over no further instruction and over another store; a load; two stores that leave word 1 alone. -/
theorem witness_MemoryIsSequentiallyConsistent :
    (∃ t, exec (.sw 0 2 0xFFC) State.reset = .next t ∧
      ∃ u, KeepsWord (wordIndex (effectiveAddress (State.reset.x 0) 0xFFC)) t u ∧ u.pc = 8#32) ∧
    ((∃ t, exec (.lw 0 2 0xFFC) State.reset = .next t) ∧ (2#5 : RegIdx) ≠ 0#5) ∧
    ∃ s, KeepsWord 1 (State.launch [] 1024 [(1, 5#32)]) s ∧ s.pc = 8#32 :=
  ⟨⟨_, rfl, _, .tail (.sw 0 2 0) .refl rfl (by decide), rfl⟩, ⟨completes_iff _ (by decide), by decide⟩, _,
    .tail (.sw 0 2 8) (.tail (.sw 0 2 0) .refl rfl (by decide)) rfl (by decide), rfl⟩

/-- A store at the last word, and a load of it through another of its four addresses. -/
theorem witness_StoreThenLoadRoundTrips :
    ∃ t, exec (.sw 0 2 0xFFC) (start 0#32 [(2, 5#32)] []) = .next t ∧
      KeepsWord (wordIndex (effectiveAddress ((start 0#32 [(2, 5#32)] []).x 0) 0xFFC)) t t ∧
      wordIndex (effectiveAddress (t.x 0) 0xFFF) =
        wordIndex (effectiveAddress ((start 0#32 [(2, 5#32)] []).x 0) 0xFFC) :=
  ⟨_, rfl, .refl, by decide⟩

theorem witness_RegisterZeroReadsZero :
    wordIndex (effectiveAddress (State.reset.x 1) 0xFFF) < State.reset.dmemWords ∧
    (sext32 0xFFF).toNat / 4 < State.reset.dmemWords := by decide

/-- A destination of register 0, and a load into it on either side of the end of data memory. -/
theorem witness_WritesToZeroAreDiscarded :
    (destination? (.slt 1 2 0 0) = some 0#5 ∧ reachesData (.slt 1 2 0 0) = false) ∧
    (destination? (.lui 0 0 0x1234) = some 0#5 ∧ reachesData (.lui 0 0 0x1234) = false) ∧
    wordIndex (effectiveAddress (State.reset.x 1) 0xFFF) < State.reset.dmemWords ∧
    ¬ wordIndex (effectiveAddress (State.reset.x 1) 0x1000) < State.reset.dmemWords := by decide

theorem witness_ReadsComeBeforeWrites :
    ((start 0#32 [(1, 0xFFC#32)] []).x 1).toNat / 4 < State.reset.dmemWords ∧
    ∃ t, exec (.j 0x10) State.reset = .next t ∧ t.pc ≠ State.reset.pc + 4#32 :=
  ⟨by decide, _, rfl, by decide⟩

/-- A jump, a taken beq and a taken bne, each with a supported word at its target. -/
theorem witness_NoDelaySlot :
    (let s : State := { start 0#32 [] [] with imem := [0x08000002#32, 0x20010001#32, 0x20010002#32] }
     fetchDecode s = .instr (.j 2) ∧ s.imem[(jumpTarget s.pc 2).toNat / 4]? = some 0x20010002#32 ∧
       decode 0x20010002#32 = .ok (.addi 0 1 2) ∧ ∃ t, step s = .next t) ∧
    (let s : State := { start 0#32 [] [] with imem := [0x10220001#32, 0x20010001#32, 0x20010002#32] }
     fetchDecode s = .instr (.beq 1 2 1) ∧ s.x 1 = s.x 2 ∧
       s.imem[(branchTarget s.pc 1).toNat / 4]? = some 0x20010002#32 ∧ ∃ t, step s = .next t) ∧
    (let s : State := { start 0#32 [(1, 1#32)] [] with imem := [0x14220001#32, 0x20010001#32, 0x20010002#32] }
     fetchDecode s = .instr (.bne 1 2 1) ∧ s.x 1 ≠ s.x 2 ∧
       s.imem[(branchTarget s.pc 1).toNat / 4]? = some 0x20010002#32 ∧ ∃ t, step s = .next t) :=
  ⟨⟨by decide, by decide, by decide, completes_iff _ (by decide)⟩,
    ⟨by decide, by decide, by decide, completes_iff _ (by decide)⟩,
    ⟨by decide, by decide, by decide, completes_iff _ (by decide)⟩⟩

/-- The first and the last of the four addresses of the last word. -/
theorem witness_MisalignedDataReachesItsWord :
    effectiveAddress (State.reset.x 1) 0xFFC &&& 0xFFFFFFFC#32 = effectiveAddress (State.reset.x 1) 0xFFF &&& 0xFFFFFFFC#32 ∧
    (effectiveAddress (State.reset.x 1) 0xFFC).toNat / 4 < State.reset.dmemWords := by decide

theorem witness_CanonicalMemoriesAreDetermined :
    Memory.wf [(0, 1#32), (1023, 2#32)] ∧
    ∀ i, Memory.read [(0, 1#32), (1023, 2#32)] i = Memory.read [(0, 1#32), (1023, 2#32)] i :=
  ⟨by decide, fun _ => rfl⟩

theorem witness_FaultIsTerminal : step State.reset = .fault (.fetchOutOfRange 0#32) := rfl

/-- A run that ends at once, one that ends after a cycle, a jump to itself, and a step that changes nothing. -/
theorem witness_EndOfRunIsStable :
    runStatus (some 0#32) (drive (some 0#32) 0 (startRun State.reset)) = .ended ∧
    runStatus (some 4#32) (drive (some 4#32) 1 (startRun (State.reset.withFetchWord 32 0))) = .ended ∧
    jumpTarget (start 0x18#32 [] []).pc 6 = (start 0x18#32 [] []).pc ∧
    (let s := State.reset.withFetchWord 32 0x1000FFFF; step s = .next s) :=
  ⟨by decide, by decide, by decide, rfl⟩

/-- The last word of data memory, reached from below and, with a wrapped sum, from above. -/
theorem witness_LoadWordResult :
    wordIndex (effectiveAddress (State.reset.x 1) 0xFFF) < State.reset.dmemWords ∧
    wordIndex (effectiveAddress ((start 0#32 [(1, 0xFFFFFFFC#32)] []).x 1) 8) < State.reset.dmemWords := by decide

theorem witness_StoreWordResult :
    wordIndex (effectiveAddress (State.reset.x 1) 0xFFF) < State.reset.dmemWords ∧
    wordIndex (effectiveAddress ((start 0#32 [(1, 0xFFFFFFFC#32)] []).x 1) 8) < State.reset.dmemWords := by decide

/-- The first address outside, and the last address there is. -/
theorem witness_AccessOutsideStops :
    State.reset.dmemWords ≤ wordIndex (effectiveAddress (State.reset.x 1) 0x1000) ∧
    State.reset.dmemWords ≤ wordIndex (effectiveAddress (State.reset.x 1) 0xFFFF) := by decide

end Sys2Proof.Tests
end

section
/-! PROOFS. What lw and sw do inside data memory, in the shapes claims use: a write to one register, a store to one word. -/

namespace Sys2Proof.Machine

/-- Every instruction that ends by writing a register changes that register and `pc` alone. -/
theorem writeAndAdvance_writesOnly (s : State) (d : RegIdx) (v : Word) : WritesOnly s (writeAndAdvance s d v) d v :=
  ⟨_, rfl, x_writeReg s d v, sequential_toNat s.pc, ⟨by simp, by simp⟩, by simp [SameImem]⟩

theorem loadAndAdvance_writesOnly {s : State} {d : RegIdx} {a : Word} (h : wordIndex a < s.dmemWords) :
    WritesOnly s (loadAndAdvance s d a) d (Memory.read s.dmem (wordIndex a)) := by
  rw [loadAndAdvance_inside h]
  exact writeAndAdvance_writesOnly ..

theorem storeAndAdvance_storesOnly {s : State} {a v : Word} (h : wordIndex a < s.dmemWords) :
    StoresOnly s (storeAndAdvance s a v) (wordIndex a) v := by
  rw [storeAndAdvance_inside h]
  exact ⟨_, rfl, ⟨rfl, read_write s.dmem (wordIndex a) v⟩, sequential_toNat s.pc, fun _ => rfl, rfl⟩

theorem exec_lw (rs rt : RegIdx) (imm : BitVec 16) (s : State) :
    exec (.lw rs rt imm) s = loadAndAdvance s rt (effectiveAddress (s.x rs) imm) := rfl

theorem exec_sw (rs rt : RegIdx) (imm : BitVec 16) (s : State) :
    exec (.sw rs rt imm) s = storeAndAdvance s (effectiveAddress (s.x rs) imm) (s.x rt) := rfl

/-- lw inside data memory (45_load_store.md R180). -/
theorem exec_lw_writesOnly {rs rt : RegIdx} {imm : BitVec 16} {s : State}
    (h : wordIndex (effectiveAddress (s.x rs) imm) < s.dmemWords) :
    WritesOnly s (exec (.lw rs rt imm) s) rt (Memory.read s.dmem (wordIndex (effectiveAddress (s.x rs) imm))) := by
  rw [exec_lw]
  exact loadAndAdvance_writesOnly h

/-- sw inside data memory (45_load_store.md R181). -/
theorem exec_sw_storesOnly {rs rt : RegIdx} {imm : BitVec 16} {s : State}
    (h : wordIndex (effectiveAddress (s.x rs) imm) < s.dmemWords) :
    StoresOnly s (exec (.sw rs rt imm) s) (wordIndex (effectiveAddress (s.x rs) imm)) (s.x rt) := by
  rw [exec_sw]
  exact storeAndAdvance_storesOnly h

end Sys2Proof.Machine
end

section
/-! PROOFS. Register 0 as an operand (10_state.md R11). -/

namespace Sys2Proof.Machine

/-- From base register 0 the displacement alone is the address. -/
theorem effectiveAddress_x_zero (s : State) (imm : BitVec 16) : effectiveAddress (s.x 0#5) imm = sext32 imm := by
  simp [effectiveAddress]

/-- Settles O37: register 0 reads 0, and the results of lw and sw are read off at that value of the data or the base. -/
theorem registerZeroReadsZero : Obligations.RegisterZeroReadsZero := by
  refine ⟨x_zero, fun s rs imm h => ?data, fun s rt imm h => ?base⟩
  case data => simpa only [x_zero] using exec_sw_storesOnly (rt := 0#5) h
  case base =>
    have index : wordIndex (effectiveAddress (s.x 0#5) imm) = (sext32 imm).toNat / 4 := by
      rw [effectiveAddress_x_zero, wordIndex_eq]
    rw [← index] at h ⊢
    exact ⟨exec_lw_writesOnly h, exec_sw_storesOnly h⟩

end Sys2Proof.Machine
end

section
/-! PROOFS. What an instruction can do, said once for all eighteen: it writes a register, transfers, loads or stores; and what
a run keeps when every clock keeps it. -/

namespace Sys2Proof.Machine

/-- The four ways an instruction ends, each with the register and the data word it may write. -/
theorem exec_shape (i : Instr) (s : State) :
    (∃ d v, destination? i = some d ∧ storedIndex? i s = none ∧ exec i s = writeAndAdvance s d v) ∨
    (∃ a, destination? i = none ∧ storedIndex? i s = none ∧ exec i s = transferTo s a) ∨
    (∃ rs rt imm, i = .lw rs rt imm) ∨ (∃ rs rt imm, i = .sw rs rt imm) :=
  match i with
  | .sll .. | .add .. | .addu .. | .sub .. | .subu .. | .and .. | .or .. | .xor .. | .slt ..
  | .addi .. | .addiu .. | .slti .. | .lui .. => .inl ⟨_, _, rfl, rfl, rfl⟩
  | .j .. | .beq .. | .bne .. => .inr (.inl ⟨_, rfl, rfl, rfl⟩)
  | .lw rs rt imm => .inr (.inr (.inl ⟨rs, rt, imm, rfl⟩))
  | .sw rs rt imm => .inr (.inr (.inr ⟨rs, rt, imm, rfl⟩))

/-- The next states there are: one register written, the program counter alone set, or one data word replaced by sw. -/
theorem exec_next {i : Instr} {s t : State} (h : exec i s = .next t) :
    (∃ d v, destination? i = some d ∧ storedIndex? i s = none ∧ t = (s.writeReg d v).setPc (sequential s.pc)) ∨
    (∃ a, destination? i = none ∧ storedIndex? i s = none ∧ t = s.setPc a) ∨
    (∃ rs rt imm, i = .sw rs rt imm ∧ wordIndex (effectiveAddress (s.x rs) imm) < s.dmemWords ∧
      t = ({ s with dmem := Memory.write s.dmem (wordIndex (effectiveAddress (s.x rs) imm)) (s.x rt) } : State).setPc
        (sequential s.pc)) := by
  rcases exec_shape i s with ⟨d, v, hd, hk, he⟩ | ⟨a, hd, hk, he⟩ | ⟨rs, rt, imm, rfl⟩ | ⟨rs, rt, imm, rfl⟩
  · exact .inl ⟨d, v, hd, hk, writeAndAdvance_next (he ▸ h)⟩
  · exact .inr (.inl ⟨a, hd, hk, transferTo_next (he ▸ h)⟩)
  · exact .inl ⟨rt, _, rfl, rfl, (loadAndAdvance_next h).2⟩
  · exact .inr (.inr ⟨rs, rt, imm, rfl, storeAndAdvance_next h⟩)

/-- A clock leaves the state as it is or takes it to the next state of a step. -/
theorem clock_state (r : Run) : (clock r).state = r.state ∨ step r.state = .next (clock r).state := by
  unfold clock
  split
  · exact .inl rfl
  · split
    · exact .inr ‹_›
    · exact .inl rfl
    · exact .inl rfl

/-- What every clock keeps, a run of any length keeps. -/
theorem drive_keeps {P : Run → Prop} (keeps : ∀ r, P r → P (clock r)) (endPc : Option Word) (n : Nat) {r : Run}
    (h : P r) : P (drive endPc n r) := by
  induction n generalizing r with
  | zero => exact h
  | succ n ih =>
    unfold drive
    split
    · exact ih (keeps r h)
    · exact h

end Sys2Proof.Machine
end

section
/-! PROOFS. Stores and the fetch (20_memory.md R42): no instruction writes instruction memory. -/

namespace Sys2Proof.Machine

theorem exec_imem {i : Instr} {s t : State} (h : exec i s = .next t) : t.imem = s.imem := by
  rcases exec_next h with ⟨d, v, -, -, rfl⟩ | ⟨a, -, -, rfl⟩ | ⟨rs, rt, imm, -, -, rfl⟩
  · simp only [setPc_imem, writeReg_imem]
  · exact setPc_imem s a
  · rfl

theorem step_imem {s t : State} (h : step s = .next t) : t.imem = s.imem := by
  obtain ⟨i, -, he⟩ := step_next h
  exact exec_imem he

theorem clock_imem (r : Run) : (clock r).state.imem = r.state.imem := by
  rcases clock_state r with h | h
  · rw [h]
  · exact step_imem h

/-- Settles O34: a step keeps the image, so a run does, and the fetch reads the image and `pc` alone. -/
theorem storesNeverReachFetch : Obligations.StoresNeverReachFetch := by
  refine ⟨fun s t => step_imem, fun n endPc r => ?run, fun s m => by rw [fetch_eq, fetch_eq]⟩
  case run =>
    exact drive_keeps (P := fun q => q.state.imem = r.state.imem) (fun q hq => (clock_imem q).trans hq) endPc n rfl

end Sys2Proof.Machine
end

section
/-! PROOFS. Loads and stores in program order (20_memory.md R39): what one instruction, and a run of instructions that store
elsewhere, make of data memory. -/

namespace Sys2Proof.Machine

/-- lw that completes leaves in its destination the word as it stood before. -/
theorem exec_lw_loaded {rs rt : RegIdx} {imm : BitVec 16} {s t : State} (h : exec (.lw rs rt imm) s = .next t)
    (hrt : rt ≠ 0#5) : t.x rt = Memory.read s.dmem (wordIndex (effectiveAddress (s.x rs) imm)) := by
  obtain ⟨-, rfl⟩ := loadAndAdvance_next h
  rw [x_setPc, x_writeReg, if_pos ⟨rfl, hrt⟩]

/-- sw that completes replaces the addressed word and no other. -/
theorem exec_sw_dataUpdated {rs rt : RegIdx} {imm : BitVec 16} {s t : State} (h : exec (.sw rs rt imm) s = .next t) :
    DataUpdated s t (wordIndex (effectiveAddress (s.x rs) imm)) (s.x rt) := by
  obtain ⟨-, rfl⟩ := storeAndAdvance_next h
  exact ⟨rfl, read_write s.dmem _ _⟩

/-- An instruction leaves data memory as it was, or is a sw and replaces its one word. -/
theorem exec_data {i : Instr} {s t : State} (h : exec i s = .next t) :
    SameData s t ∨ ∃ rs rt imm, i = .sw rs rt imm ∧
      DataUpdated s t (wordIndex (effectiveAddress (s.x rs) imm)) (s.x rt) := by
  rcases exec_next h with ⟨d, v, -, -, rfl⟩ | ⟨a, -, -, rfl⟩ | ⟨rs, rt, imm, rfl, -, -⟩
  · exact .inl ⟨by simp, by simp⟩
  · exact .inl ⟨rfl, fun _ => rfl⟩
  · exact .inr ⟨rs, rt, imm, rfl, exec_sw_dataUpdated h⟩

/-- A word that an instruction does not store to reads as before. -/
theorem exec_read_elsewhere {i : Instr} {s t : State} {k : Nat} (h : exec i s = .next t)
    (elsewhere : storedIndex? i s ≠ some k) : Memory.read t.dmem k = Memory.read s.dmem k := by
  rcases exec_data h with ⟨-, same⟩ | ⟨rs, rt, imm, rfl, -, updated⟩
  · exact same k
  · have hk : k ≠ wordIndex (effectiveAddress (s.x rs) imm) := fun e => elsewhere (congrArg some e.symm)
    rw [updated k, if_neg hk]

/-- A word that no instruction of a sequence stores to reads as before the sequence. -/
theorem read_of_keepsWord {k : Nat} {s t : State} (h : KeepsWord k s t) :
    Memory.read t.dmem k = Memory.read s.dmem k := by
  induction h with
  | refl => rfl
  | tail i _ run elsewhere ih => rw [exec_read_elsewhere run elsewhere, ih]

/-- Settles O35: one instruction replaces at most the word of sw, and a word keeps its value until the next store to it. -/
theorem memoryIsSequentiallyConsistent : Obligations.MemoryIsSequentiallyConsistent := by
  refine ⟨fun i s t => exec_data, fun rs rt imm s t => exec_lw_loaded, fun rs rt imm s t u h kept => ?stored,
    fun image n k m s kept => ?launched⟩
  case stored =>
    obtain ⟨-, updated⟩ := exec_sw_dataUpdated h
    rw [read_of_keepsWord kept, updated, if_pos rfl]
  case launched => rw [read_of_keepsWord kept, launch_dmem]

end Sys2Proof.Machine
end

section
/-! PROOFS. The Field Extractor in numbers (30_encoding.md R51). -/

namespace Sys2Proof

/-- A slice of a word, as the field table writes it: the word shifted right, under a mask of the slice's width. -/
theorem slice_toNat (w : Word) (lo width : Nat) :
    (w.extractLsb' lo width).toNat = (w.toNat >>> lo) &&& (2 ^ width - 1) := by
  rw [BitVec.extractLsb'_toNat, Nat.and_two_pow_sub_one_eq_mod]

/-- Settles O4: eight fields are slices of the word, and `imm32` keeps the signed reading of `imm16`. -/
theorem fieldsAreShiftsAndMasks : Obligations.FieldsAreShiftsAndMasks := by
  intro w
  exact ⟨slice_toNat w 26 6, slice_toNat w 21 5, slice_toNat w 16 5, slice_toNat w 11 5, slice_toNat w 6 5,
    slice_toNat w 0 6, slice_toNat w 0 16, Machine.sext32_toInt (imm16Of w), slice_toNat w 0 26⟩

end Sys2Proof
end

section
/-! PROOFS. The immediate as the Field Extractor widens it, and as lui takes it (40_decoder.md R71). -/

namespace Sys2Proof

/-- The widened immediate in numbers: from 0x8000 on, 0xFFFF0000 is added. -/
theorem sext32_toNat (v : BitVec 16) : (sext32 v).toNat = v.toNat + if 0x8000 ≤ v.toNat then 0xFFFF0000 else 0 := by
  rw [sext32, BitVec.toNat_signExtend, BitVec.toNat_setWidth_of_le (by decide), BitVec.msb_eq_decide]
  simp

/-- Below 0x8000 the upper half is 0x0000. -/
theorem sext32_toNat_of_lt {v : BitVec 16} (h : v.toNat < 0x8000) : (sext32 v).toNat = v.toNat := by
  rw [sext32_toNat, if_neg (Nat.not_le.2 h), Nat.add_zero]

/-- From 0x8000 on the upper half is 0xFFFF: the two halves share no bit, so the sum is their union. -/
theorem sext32_toNat_of_ge {v : BitVec 16} (h : 0x8000 ≤ v.toNat) : (sext32 v).toNat = 0xFFFF0000 ||| v.toNat := by
  have sum_eq_or : 0xFFFF0000 + v.toNat = 0xFFFF0000 ||| v.toNat := Nat.shiftLeft_add_eq_or_of_lt v.isLt 0xFFFF
  rw [sext32_toNat, if_pos h, Nat.add_comm, sum_eq_or]

/-- Settles O5: `imm32` on either side of 0x8000, and the second operand of lui. -/
theorem immediateSignExtension : Obligations.ImmediateSignExtension := fun _ =>
  ⟨sext32_toNat_of_lt, sext32_toNat_of_ge, fun _ => rfl⟩

end Sys2Proof
end

section
/-! PROOFS. The reserved flag in the vectors the Control Unit produces and in the later stages (40_decoder.md R80). -/

namespace Sys2Proof.Machine

/-- No row of `FUNCT_ROM` sets the reserved flag. -/
theorem functRow_extra3 {fn : BitVec 6} {c : Ctrl} (h : functRow fn = some c) : c.extra3 = false := by
  unfold functRow at h
  split at h <;> cases h <;> rfl

/-- No row of `MAIN_ROM` sets the reserved flag. -/
theorem mainRow_extra3 {op : BitVec 6} {c : Ctrl} (h : mainRow op = some c) : c.extra3 = false := by
  unfold mainRow at h
  split at h <;> cases h <;> rfl

/-- Neither a selected row nor the inert vector sets the reserved flag. -/
theorem controlUnit_extra3 (f : Fields) : (controlUnit f).1.extra3 = false := by
  unfold controlUnit
  split
  next c selected =>
    split at selected
    · exact functRow_extra3 selected
    · exact mainRow_extra3 selected
  next => rfl

/-- Settles O12: no row of the table sets the flag, nor does the inert vector, and the later stages use the other twelve
signals alone. -/
theorem reservedFlagIsZeroAndUnread : Obligations.ReservedFlagIsZeroAndUnread := by
  refine ⟨controlUnit_extra3, fun c b f s => ?unread⟩
  case unread => rfl

end Sys2Proof.Machine
end

section
/-! PROOFS. Instructions that share a row of the control table (40_decoder.md R83). -/

namespace Sys2Proof.Machine

/-- An instruction that does not reach data memory completes. -/
theorem exec_completes {i : Instr} (s : State) (h : reachesData i = false) : ∃ t, exec i s = .next t := by
  rcases exec_shape i s with ⟨d, v, -, -, he⟩ | ⟨a, -, -, he⟩ | ⟨rs, rt, imm, rfl⟩ | ⟨rs, rt, imm, rfl⟩
  · exact ⟨_, he⟩
  · exact ⟨_, he⟩
  · cases h
  · cases h

/-- Adding the negated operand is subtracting it. -/
theorem add_zero_sub_eq_sub (a b : Word) : a + (0#32 - b) = a - b := by
  rw [BitVec.zero_sub, BitVec.sub_eq_add_neg]

/-- sub adds the negated operand where subu subtracts (42_rformat.md R144, R145). -/
theorem exec_sub_eq_exec_subu (rs rt rd sh : BitVec 5) (s : State) :
    exec (.sub rs rt rd sh) s = exec (.subu rs rt rd sh) s :=
  congrArg (writeAndAdvance s rd) (add_zero_sub_eq_sub (s.x rs) (s.x rt))

/-- Settles O39: each pair has one row and one effect, and none of the six reaches data memory, where alone an instruction
stops. -/
theorem sharedRowsAreOneInstr : Obligations.SharedRowsAreOneInstr := by
  intro rs rt rd sh imm s
  refine ⟨⟨rfl, ?add, exec_completes s rfl⟩, ⟨rfl, ?sub, exec_completes s rfl⟩, ⟨rfl, ?addi, exec_completes s rfl⟩⟩
  case add => rfl
  case sub => exact exec_sub_eq_exec_subu rs rt rd sh s
  case addi => rfl

end Sys2Proof.Machine
end

section
/-! PROOFS. The jump target in numbers (41_datapath.md R122): the two masked operands share no bit. -/

namespace Sys2Proof.Machine

/-- The mask keeps the top four bits where they stand. -/
theorem and_topNibble_toNat (v : Word) : (v &&& 0xF0000000#32).toNat = (v.toNat / 2 ^ 28) <<< 28 := by
  have mask : 0xF0000000#32 = BitVec.allOnes 32 <<< 28 := by decide
  have := v.isLt
  rw [mask, ← BitVec.shiftLeft_ushiftRight, BitVec.toNat_shiftLeft, BitVec.toNat_ushiftRight,
    Nat.shiftRight_eq_div_pow, Nat.shiftLeft_eq]
  omega

/-- The address field times 4 fits under the mask of the low 28 bits. -/
theorem addressField_toNat (address : BitVec 26) :
    ((address.setWidth 32 <<< 2) &&& 0x0FFFFFFF#32).toNat = address.toNat * 4 := by
  have mask : (0x0FFFFFFF#32).toNat = 2 ^ 28 - 1 := by decide
  have := address.isLt
  rw [BitVec.toNat_and, mask, Nat.and_two_pow_sub_one_eq_mod, BitVec.toNat_shiftLeft, BitVec.toNat_setWidth,
    Nat.shiftLeft_eq]
  omega

theorem jumpTarget_toNat (pc : Word) (address : BitVec 26) :
    (jumpTarget pc address).toNat = (pc.toNat + 4) % 2 ^ 32 / 2 ^ 28 * 2 ^ 28 + address.toNat * 4 := by
  have low : address.toNat * 4 < 2 ^ 28 := by have := address.isLt; omega
  rw [jumpTarget, BitVec.toNat_or, and_topNibble_toNat, addressField_toNat, sequential_toNat,
    ← Nat.shiftLeft_add_eq_or_of_lt low, Nat.shiftLeft_eq]

/-- Settles O20: the top four bits and the address field times 4 add up, and both are multiples of 4. -/
theorem jumpTargetAssembly : Obligations.JumpTargetAssembly := by
  intro pc address
  have target := jumpTarget_toNat pc address
  exact ⟨target, by omega⟩

end Sys2Proof.Machine
end

section
/-! PROOFS. The Write-Back Unit, and that the Memory Stage and the program counter's update leave the register file as it was
(41_datapath.md R125). -/

namespace Sys2Proof.Machine

theorem writeBack_of_not_regWrite {c : Ctrl} (h : c.regWrite = false) (f : Fields) (alu mem : Word) (s : State) :
    writeBack c f alu mem s = s := by
  simp [writeBack, h]

theorem writeBack_of_regWrite {c : Ctrl} (h : c.regWrite = true) (f : Fields) (alu mem : Word) (s : State) :
    writeBack c f alu mem s = s.writeReg (writeBackDest c f) (if c.memToReg = true then mem else alu) :=
  if_pos h

/-- What any register reads after the unit has written. -/
theorem x_writeBack {c : Ctrl} (h : c.regWrite = true) (f : Fields) (alu mem : Word) (s : State) (r : RegIdx) :
    (writeBack c f alu mem s).x r =
      if r = writeBackDest c f ∧ r ≠ 0#5 then (if c.memToReg = true then mem else alu) else s.x r := by
  have guard : (r = writeBackDest c f ∧ writeBackDest c f ≠ 0#5) ↔ (r = writeBackDest c f ∧ r ≠ 0#5) :=
    and_congr_right fun e => by rw [e]
  rw [writeBack_of_regWrite h, x_writeReg, if_congr guard rfl rfl]

/-- The unit changes neither `pc` nor either memory. -/
theorem writeBack_frame (c : Ctrl) (f : Fields) (alu mem : Word) (s : State) :
    (writeBack c f alu mem s).pc = s.pc ∧ SameData s (writeBack c f alu mem s) ∧
      SameImem s (writeBack c f alu mem s) := by
  cases h : c.regWrite with
  | false =>
    rw [writeBack_of_not_regWrite h]
    exact ⟨rfl, ⟨rfl, fun _ => rfl⟩, rfl⟩
  | true =>
    rw [writeBack_of_regWrite h]
    exact ⟨writeReg_pc .., ⟨writeReg_dmemWords .., fun _ => by rw [writeReg_dmem]⟩, writeReg_imem ..⟩

/-- The Memory Stage completes when its read and its write both do. -/
theorem memoryStage_ok {c : Ctrl} {s t : State} {addr v m : Word} (h : memoryStage c s addr v = .ok (m, t)) :
    memoryRead c s addr = some m ∧ memoryWrite c s addr v = some t := by
  unfold memoryStage at h
  split at h
  · cases h
  · cases h
  · cases h; exact ⟨‹_›, ‹_›⟩

/-- A write that completes leaves the state as it was, or replaces the addressed word. -/
theorem memoryWrite_some {c : Ctrl} {s t : State} {addr v : Word} (h : memoryWrite c s addr v = some t) :
    t = s ∨ t = { s with dmem := Memory.write s.dmem (wordIndex addr) v } := by
  unfold memoryWrite at h
  rw [storeWord_eq] at h
  split at h
  · split at h
    · cases h; exact .inr rfl
    · cases h
  · cases h; exact .inl rfl

theorem memoryStage_sameRegs {c : Ctrl} {s t : State} {addr v m : Word} (h : memoryStage c s addr v = .ok (m, t)) :
    SameRegs s t := by
  rcases memoryWrite_some (memoryStage_ok h).2 with rfl | rfl
  · exact fun _ => rfl
  · exact x_dmem s _

/-- Settles O23: the unit is a register write or nothing; the Memory Stage replaces a data word at most. -/
theorem writeBackUnit : Obligations.WriteBackUnit := by
  refine ⟨fun c f alu mem s => ?unit, fun c s t addr v m => memoryStage_sameRegs, x_setPc⟩
  case unit =>
    exact ⟨fun h => writeBack_of_not_regWrite h f alu mem s, fun h => x_writeBack h f alu mem s,
      writeBack_frame c f alu mem s⟩

end Sys2Proof.Machine
end

section
/-! PROOFS. The ALU Input Selectors, one equation for each test in the order of the tests (41_datapath.md R100, R101). -/

namespace Sys2Proof.Machine

theorem selectA_of_upperImm {c : Ctrl} (h : c.upperImm = true) (rs rt : Word) : selectA c rs rt = 0#32 :=
  if_pos h

theorem selectA_of_shift {c : Ctrl} (hu : c.upperImm = false) (ho : c.aluOp = .shift) (rs rt : Word) :
    selectA c rs rt = rt := by
  simp [selectA, hu, ho]

theorem selectA_of_neither {c : Ctrl} (hu : c.upperImm = false) (ho : c.aluOp ≠ .shift) (rs rt : Word) :
    selectA c rs rt = rs := by
  simp [selectA, hu, ho]

theorem selectB_of_shift {c : Ctrl} (h : c.aluOp = .shift) (f : Fields) (rt : Word) :
    selectB c f rt = shiftAmount f.shamt :=
  if_pos h

theorem selectB_of_upperImm {c : Ctrl} (ho : c.aluOp ≠ .shift) (hu : c.upperImm = true) (f : Fields) (rt : Word) :
    selectB c f rt = upperImmediate f.imm16 := by
  simp [selectB, ho, hu]

theorem selectB_of_neither {c : Ctrl} (ho : c.aluOp ≠ .shift) (hu : c.upperImm = false) (f : Fields) (rt : Word) :
    selectB c f rt = if c.aluSrc = true then f.imm32 else rt := by
  simp [selectB, ho, hu]

theorem shiftAmount_toNat (shamt : BitVec 5) : (shiftAmount shamt).toNat = shamt.toNat :=
  BitVec.toNat_setWidth_of_le (by decide)

/-- Settles O14: the selectors' equations, the shift amount and the upper immediate in numbers. -/
theorem selectorsFollowPrecedence : Obligations.SelectorsFollowPrecedence := by
  intro c f rs rt
  refine ⟨fun hu => selectA_of_upperImm hu rs rt, fun hu ho => selectA_of_shift hu ho rs rt,
    fun hu ho => selectA_of_neither hu ho rs rt, fun ho => ?shamt, fun ho hu => ?upper, fun ho hu hs => ?rt,
    fun ho hu hs => ?imm⟩
  case shamt => rw [selectB_of_shift ho, shiftAmount_toNat]
  case upper => rw [selectB_of_upperImm ho hu, upperImmediate_toNat]
  case rt => rw [selectB_of_neither ho hu, hs, if_neg Bool.false_ne_true]
  case imm => rw [selectB_of_neither ho hu, hs, if_pos rfl]

end Sys2Proof.Machine
end

section
/-! PROOFS. The zero flag, who reads it, and the two codes that name no operation (41_datapath.md R105, R106). -/

namespace Sys2Proof.Machine

theorem zeroFlag_iff {v : Word} : zeroFlag v = true ↔ v = 0#32 := beq_iff_eq

/-- Without the branch signal the Next-PC Unit chooses between jump and sequential alone. -/
theorem nextPc_of_not_branch {c : Ctrl} (h : c.branch = false) (f : Fields) (zero : Bool) (pc : Word) :
    nextPc c f zero pc = if c.jump = true then jumpTarget pc f.address else sequential pc := by
  simp [nextPc, h]

/-- A code that is none of the six operations is one of the other two, and both give 0. -/
theorem aluResult_of_unrecognised {c : Ctrl} (hand : c.aluOp ≠ .and) (hor : c.aluOp ≠ .or) (hadd : c.aluOp ≠ .add)
    (hslt : c.aluOp ≠ .slt) (hxor : c.aluOp ≠ .xor) (hshift : c.aluOp ≠ .shift) (a b : Word) :
    aluResult c a b = 0#32 := by
  cases code : c.aluOp with
  | code6 | code7 => simp only [aluResult, code]
  | and | or | add | slt | xor | shift => contradiction

/-- Settles O16: the flag tests the result word, and without the branch signal the Next-PC Unit does not read it. -/
theorem zeroFlagAndUnrecognisedCode : Obligations.ZeroFlagAndUnrecognisedCode := by
  refine ⟨fun c a b => ?flag, fun c f zero zero' pc h => ?unread, fun c a b hand hor hadd hslt hxor hshift => ?code⟩
  case flag => rw [zeroFlag_iff, ← BitVec.toNat_inj]; rfl
  case unread => rw [nextPc_of_not_branch h, nextPc_of_not_branch h]
  case code =>
    have result := aluResult_of_unrecognised hand hor hadd hslt hxor hshift a b
    exact ⟨result, zeroFlag_iff.2 result⟩

end Sys2Proof.Machine
end

section
/-! PROOFS. The branch decision (41_datapath.md R121): the branch rows subtract, and the difference is 0 at equal registers
alone. -/

namespace Sys2Proof.Machine

theorem branchTaken_of_notEqual {c : Ctrl} (h : c.notEqual = true) (zero : Bool) : branchTaken c zero = !zero :=
  if_pos h

theorem branchTaken_of_equal {c : Ctrl} (h : c.notEqual = false) (zero : Bool) : branchTaken c zero = zero := by
  simp [branchTaken, h]

/-- Adding the negated operand is subtraction. -/
theorem aluResult_sub {c : Ctrl} (ho : c.aluOp = .add) (hn : c.negate = true) (a b : Word) :
    aluResult c a b = a - b := by
  rw [← add_zero_sub_eq_sub]
  simp [aluResult, negated, ho, hn]

/-- A vector with the signals of the branch rows compares the two registers: the flag is 1 when they are equal. -/
theorem zeroFlag_compare_iff {c : Ctrl} (ho : c.aluOp = .add) (hn : c.negate = true) (hu : c.upperImm = false)
    (hs : c.aluSrc = false) (f : Fields) (rs rt : Word) :
    zeroFlag (aluResult c (selectA c rs rt) (selectB c f rt)) = true ↔ rs = rt := by
  have noShift : c.aluOp ≠ .shift := by rw [ho]; decide
  rw [selectA_of_neither hu noShift, selectB_of_neither noShift hu, hs, if_neg Bool.false_ne_true,
    aluResult_sub ho hn, zeroFlag_iff]
  exact sub_eq_zero

/-- Settles O19: the decision is the flag or its negation, and the branch rows set the flag at equal registers. -/
theorem branchDecision : Obligations.BranchDecision := by
  refine ⟨fun c zero h => ?notEqual, fun c zero h => ?equal, fun f rs rt => ⟨?beq, ?bne⟩⟩
  case notEqual => rw [branchTaken_of_notEqual h, Bool.not_eq_true']
  case equal => rw [branchTaken_of_equal h]
  case beq =>
    rw [branchTaken_of_equal rfl]
    exact zeroFlag_compare_iff rfl rfl rfl rfl f rs rt
  case bne =>
    rw [branchTaken_of_notEqual rfl, Bool.not_eq_true', ← Bool.not_eq_true]
    exact not_congr (zeroFlag_compare_iff rfl rfl rfl rfl f rs rt)

end Sys2Proof.Machine
end

section
/-! PROOFS. No delay slot (43_jump_branch.md R163): a jump or a taken branch sets `pc` alone, to an aligned target, so the
next fetch reads the word there. -/

namespace Sys2Proof.Machine

theorem exec_j (address : BitVec 26) (s : State) : exec (.j address) s = transferTo s (jumpTarget s.pc address) := rfl

/-- beq at equal registers is taken (43_jump_branch.md R162). -/
theorem exec_beq_taken {rs rt : RegIdx} {s : State} (h : s.x rs = s.x rt) (imm : BitVec 16) :
    exec (.beq rs rt imm) s = transferTo s (branchTarget s.pc imm) :=
  congrArg (transferTo s) (if_pos h)

/-- bne at different registers is taken (43_jump_branch.md R164). -/
theorem exec_bne_taken {rs rt : RegIdx} {s : State} (h : s.x rs ≠ s.x rt) (imm : BitVec 16) :
    exec (.bne rs rt imm) s = transferTo s (branchTarget s.pc imm) :=
  congrArg (transferTo s) (if_pos h)

theorem aligned_jumpTarget (pc : Word) (address : BitVec 26) : aligned (jumpTarget pc address) = true :=
  (aligned_iff _).2 (jumpTargetAssembly pc address).2

/-- Branches count in words, so from an aligned `pc` the target is aligned (10_state.md R17). -/
theorem aligned_branchTarget {pc : Word} (h : aligned pc = true) (imm : BitVec 16) :
    aligned (branchTarget pc imm) = true := by
  rw [aligned_iff] at h ⊢
  have target := branchTarget_toNat pc imm
  omega

/-- An instruction is decoded at an aligned `pc` alone. -/
theorem aligned_of_fetchDecode {s : State} {i : Instr} (h : fetchDecode s = .instr i) : aligned s.pc = true :=
  (fetchDecode_instr.1 h).1

/-- After a transfer to an aligned address the next step runs the word that stands there. -/
theorem step_setPc {s : State} {target w : Word} {next : Instr} (ha : aligned target = true)
    (hw : s.imem[target.toNat / 4]? = some w) (hd : decode w = .ok next) :
    step (s.setPc target) = exec next (s.setPc target) := by
  rw [← wordIndex_eq] at hw
  exact step_of_fetchDecode (fetchDecode_instr.2 ⟨ha, w, hw, hd⟩)

/-- Settles O41: each of the three is a transfer to its target, which is aligned because `pc` is. -/
theorem noDelaySlot : Obligations.NoDelaySlot := by
  intro s t i w next target hi hform hw hd hstep
  have pcAligned := aligned_of_fetchDecode hi
  have transfer : exec i s = transferTo s target ∧ aligned target = true := by
    rcases hform with ⟨address, rfl, rfl⟩ | ⟨rs, rt, imm, rfl, heq, rfl⟩ | ⟨rs, rt, imm, rfl, hne, rfl⟩
    · exact ⟨exec_j address s, aligned_jumpTarget s.pc address⟩
    · exact ⟨exec_beq_taken heq imm, aligned_branchTarget pcAligned imm⟩
    · exact ⟨exec_bne_taken hne imm, aligned_branchTarget pcAligned imm⟩
  obtain ⟨taken, targetAligned⟩ := transfer
  rw [step_of_fetchDecode hi, taken] at hstep
  obtain rfl := transferTo_next hstep
  exact ⟨setPc_pc s target, step_setPc targetAligned hw hd⟩

end Sys2Proof.Machine
end

section
/-! PROOFS. Where the later stages can stop (60_exceptions.md R207): only the Memory Stage answers an error, and only for an
enabled access outside data memory. -/

namespace Sys2Proof.Machine

/-- The read completes unless it is enabled and outside data memory. -/
theorem memoryRead_completes {c : Ctrl} {s : State} {addr : Word}
    (inside : c.memRead = true → wordIndex addr < s.dmemWords) : ∃ v, memoryRead c s addr = some v := by
  cases enabled : c.memRead with
  | false => exact ⟨0#32, by simp [memoryRead, enabled]⟩
  | true => exact ⟨Memory.read s.dmem (wordIndex addr), by simp [memoryRead, enabled, loadWord_eq, inside enabled]⟩

/-- The write completes unless it is enabled and outside data memory. -/
theorem memoryWrite_completes {c : Ctrl} {s : State} {addr : Word} (v : Word)
    (inside : c.memWrite = true → wordIndex addr < s.dmemWords) : ∃ t, memoryWrite c s addr v = some t := by
  cases enabled : c.memWrite with
  | false => exact ⟨s, by simp [memoryWrite, enabled]⟩
  | true =>
    exact ⟨{ s with dmem := Memory.write s.dmem (wordIndex addr) v },
      by simp [memoryWrite, enabled, storeWord_eq, inside enabled]⟩

theorem memoryStage_completes {c : Ctrl} {s : State} {addr : Word} (v : Word)
    (inside : c.memRead = true ∨ c.memWrite = true → wordIndex addr < s.dmemWords) :
    ∃ m t, memoryStage c s addr v = .ok (m, t) := by
  obtain ⟨m, hread⟩ := memoryRead_completes fun enabled => inside (.inl enabled)
  obtain ⟨t, hwrite⟩ := memoryWrite_completes v fun enabled => inside (.inr enabled)
  exact ⟨m, t, by simp only [memoryStage, hread, hwrite]⟩

/-- Where the Memory Stage completes, so do the later stages: the selectors, the ALU, the Next-PC Unit and the Write-Back
Unit have no error to answer. -/
theorem laterStages_of_memoryStage {c : Ctrl} {f : Fields} {s t : State} {m : Word}
    (h : memoryStage c s (aluResult c (selectA c (s.x f.rs) (s.x f.rt)) (selectB c f (s.x f.rt))) (s.x f.rt) =
      .ok (m, t)) : ∃ u, laterStages c f s = .next u :=
  ⟨_, by simp only [laterStages, h]; rfl⟩

/-- Settles O32: the later stages stop in the Memory Stage alone, which completes inside data memory; an instruction that
does not reach data memory completes. -/
theorem noOtherErrorExists : Obligations.NoOtherErrorExists := by
  refine ⟨fun c f s inside => ?laterStages, fun i s => exec_completes s⟩
  case laterStages =>
    rw [← wordIndex_eq] at inside
    obtain ⟨m, t, h⟩ := memoryStage_completes (s.x f.rt) inside
    exact laterStages_of_memoryStage h

end Sys2Proof.Machine
end

section
/-! PROOFS. Reads before the write (70_reset_and_hazards.md R218): an instruction that names one register as source and
destination uses the old value, and an instruction that leaves `pc + 4` writes no register. -/

namespace Sys2Proof.Machine

/-- Every instruction that ends by a transfer changes `pc` alone. -/
theorem transferTo_transfersTo (s : State) (target : Word) : TransfersTo s (transferTo s target) target :=
  ⟨_, rfl, setPc_pc s target, x_setPc s target, ⟨setPc_dmemWords s target, fun _ => rfl⟩, setPc_imem s target⟩

theorem exec_add (rs rt rd sh : BitVec 5) (s : State) :
    exec (.add rs rt rd sh) s = writeAndAdvance s rd (s.x rs + s.x rt) := rfl

/-- beq decides on the registers before the cycle (43_jump_branch.md R162). -/
theorem exec_beq_transfersTo (rs rt : RegIdx) (imm : BitVec 16) (s : State) :
    TransfersTo s (exec (.beq rs rt imm) s) (if s.x rs = s.x rt then branchTarget s.pc imm else sequential s.pc) :=
  transferTo_transfersTo ..

/-- bne decides on the registers before the cycle (43_jump_branch.md R164). -/
theorem exec_bne_transfersTo (rs rt : RegIdx) (imm : BitVec 16) (s : State) :
    TransfersTo s (exec (.bne rs rt imm) s) (if s.x rs ≠ s.x rt then branchTarget s.pc imm else sequential s.pc) :=
  transferTo_transfersTo ..

/-- At displacement 0 the base register is the address. -/
theorem effectiveAddress_zero (base : Word) : effectiveAddress base 0#16 = base := by
  simp [effectiveAddress, sext32]

/-- An instruction that writes a register goes on at `pc + 4`, so one that goes elsewhere writes none. -/
theorem sameRegs_of_pc_ne_sequential {i : Instr} {s t : State} (h : exec i s = .next t)
    (elsewhere : t.pc ≠ sequential s.pc) : SameRegs s t := by
  rcases exec_next h with ⟨d, v, -, -, rfl⟩ | ⟨a, -, -, rfl⟩ | ⟨rs, rt, imm, -, -, rfl⟩
  · exact absurd (setPc_pc ..) elsewhere
  · exact x_setPc s a
  · exact fun _ => rfl

/-- Settles O40: each result is that of the instruction's rule at the state before the cycle, and the rule that writes a
register sets `pc + 4`. -/
theorem readsComeBeforeWrites : Obligations.ReadsComeBeforeWrites := by
  refine ⟨fun r sh s => ?doubles, fun r s inside => ?oldBase, fun rs rt imm s => ?branches,
    fun i s t => sameRegs_of_pc_ne_sequential⟩
  case doubles =>
    refine ⟨s.x r + s.x r, by rw [BitVec.toNat_add, two_mul], ?_⟩
    rw [exec_add]
    exact writeAndAdvance_writesOnly ..
  case oldBase =>
    have index : wordIndex (effectiveAddress (s.x r) 0#16) = (s.x r).toNat / 4 := by
      rw [effectiveAddress_zero, wordIndex_eq]
    rw [← index] at inside ⊢
    exact ⟨exec_lw_writesOnly inside, exec_sw_storesOnly inside⟩
  case branches =>
    refine ⟨exec_beq_transfersTo rs rt imm s, ?_⟩
    have bne := exec_bne_transfersTo rs rt imm s
    rwa [ite_not] at bne

end Sys2Proof.Machine
end

section
/-! PROOFS. Decode after encode (30_encoding.md R52, R57, R58): the decoder's answer for a word given by its fields, one
equation for each format. -/

namespace Sys2Proof

/-- A register-format word goes to the function map with the fields put in. -/
theorem decode_encodeR (fn : BitVec 6) (rs rt rd sh : BitVec 5) :
    decode (encodeR fn rs rt rd sh) =
      decodeFunct { fieldExtractor (encodeR fn rs rt rd sh) with rs := rs, rt := rt, rd := rd, shamt := sh, funct := fn } := by
  rw [decode_eq, if_pos (opcodeOf_encodeR ..)]
  simp only [fieldExtractor, rsOf_encodeR, rtOf_encodeR, rdOf_encodeR, shamtOf_encodeR, functOf_encodeR]

/-- An immediate-format word goes to the primary map with the fields put in. -/
theorem decode_encodeI {op : BitVec 6} (h : op ≠ 0#6) (rs rt : BitVec 5) (imm : BitVec 16) :
    decode (encodeI op rs rt imm) =
      decodeOpcode { fieldExtractor (encodeI op rs rt imm) with opcode := op, rs := rs, rt := rt, imm16 := imm } := by
  rw [decode_eq, opcodeOf_encodeI, if_neg h]
  simp only [fieldExtractor, opcodeOf_encodeI, rsOf_encodeI, rtOf_encodeI, imm16Of_encodeI]

/-- A jump-format word goes to the primary map with the fields put in. -/
theorem decode_encodeJ {op : BitVec 6} (h : op ≠ 0#6) (address : BitVec 26) :
    decode (encodeJ op address) =
      decodeOpcode { fieldExtractor (encodeJ op address) with opcode := op, address := address } := by
  rw [decode_eq, opcodeOf_encodeJ, if_neg h]
  simp only [fieldExtractor, opcodeOf_encodeJ, addressOf_encodeJ]

/-- Settles O1: the code that the encoder writes for an instruction selects that instruction in its map. -/
theorem encodeThenDecode : Obligations.EncodeThenDecode := fun i =>
  match i with
  | .sll .. | .add .. | .addu .. | .sub .. | .subu .. | .and .. | .or .. | .xor .. | .slt .. => decode_encodeR ..
  | .j .. => decode_encodeJ (by decide) _
  | .beq .. | .bne .. | .addi .. | .addiu .. | .slti .. | .lui .. | .lw .. | .sw .. => decode_encodeI (by decide) ..

end Sys2Proof
end

section
/-! PROOFS. Encode after decode (30_encoding.md R62): the fields of a word, put together again, are the word. -/

namespace Sys2Proof

/-- The opcode and the five fields of the register format make up the word. -/
theorem opcode_or_encodeR_fields (w : Word) :
    (opcodeOf w).setWidth 32 <<< 26 ||| encodeR (functOf w) (rsOf w) (rtOf w) (rdOf w) (shamtOf w) = w := by
  apply BitVec.eq_of_getLsbD_eq; intro i hi
  interval_cases i <;> simp [encodeR, opcodeOf, functOf, rsOf, rtOf, rdOf, shamtOf]

/-- With opcode 0 the fields of the register format make up the word. -/
theorem encodeR_fields {w : Word} (h : opcodeOf w = 0#6) :
    encodeR (functOf w) (rsOf w) (rtOf w) (rdOf w) (shamtOf w) = w := by
  simpa [h] using opcode_or_encodeR_fields w

/-- The four fields of the immediate format make up the word. -/
theorem encodeI_fields (w : Word) : encodeI (opcodeOf w) (rsOf w) (rtOf w) (imm16Of w) = w := by
  apply BitVec.eq_of_getLsbD_eq; intro i hi
  interval_cases i <;> simp [encodeI, opcodeOf, rsOf, rtOf, imm16Of]

/-- The two fields of the jump format make up the word. -/
theorem encodeJ_fields (w : Word) : encodeJ (opcodeOf w) (addressOf w) = w := by
  apply BitVec.eq_of_getLsbD_eq; intro i hi
  interval_cases i <;> simp [encodeJ, opcodeOf, addressOf]

/-- What the function map answers is encoded with the fields it was given. -/
theorem encode_of_decodeFunct {f : Fields} {i : Instr} (h : decodeFunct f = .ok i) :
    encode i = encodeR f.funct f.rs f.rt f.rd f.shamt := by
  unfold decodeFunct at h
  split at h <;> cases h <;> simp only [encode, *]

/-- What the primary map answers is encoded with the fields it was given, in the jump or the immediate format. -/
theorem encode_of_decodeOpcode {f : Fields} {i : Instr} (h : decodeOpcode f = .ok i) :
    encode i = encodeJ f.opcode f.address ∨ encode i = encodeI f.opcode f.rs f.rt f.imm16 := by
  unfold decodeOpcode at h
  split at h <;> cases h <;> simp only [encode, *, true_or, or_true]

/-- Settles O2: in each map the answer is encoded with the fields of the word, and these make up the word. -/
theorem decodeThenEncode : Obligations.DecodeThenEncode := by
  intro w i h
  rw [decode_eq] at h
  split at h
  next registerFormat => exact (encode_of_decodeFunct h).trans (encodeR_fields registerFormat)
  next =>
    rcases encode_of_decodeOpcode h with jump | immediate
    · exact jump.trans (encodeJ_fields w)
    · exact immediate.trans (encodeI_fields w)

end Sys2Proof
end

section
/-! PROOFS. The opcode table against the decoder (30_encoding.md R57, R64): a row's mask keeps the codes, and the codes decide
which map answers and what. -/

namespace Sys2Proof

/-- The word of an instruction is of the instruction's own row. -/
theorem encode_row (i : Instr) : encode i &&& i.rowMask = i.rowMatch :=
  match i with
  | .sll .. | .add .. | .addu .. | .sub .. | .subu .. | .and .. | .or .. | .xor .. | .slt .. => encodeR_row ..
  | .j .. => encodeJ_row ..
  | .beq .. | .bne .. | .addi .. | .addiu .. | .slti .. | .lui .. | .lw .. | .sw .. => encodeI_row ..

/-- The instruction's row is one of the table. -/
theorem row_mem_opcodeTable (i : Instr) : ⟨i.rowMask, i.rowMatch⟩ ∈ opcodeTable := by
  cases i <;> simp [opcodeTable, Instr.rowMask, Instr.rowMatch]

theorem accepts_iff {r : OpcodeRow} {w : Word} : r.accepts w = true ↔ w &&& r.mask = r.value := beq_iff_eq

/-- A word that decodes is of the row of its instruction. -/
theorem row_accepts_of_decode {w : Word} {i : Instr} (h : decode w = .ok i) :
    (OpcodeRow.mk i.rowMask i.rowMatch).accepts w = true := by
  rw [accepts_iff, ← decodeThenEncode w i h]
  exact encode_row i

/-- The mask of the register-format rows keeps the two code fields. -/
theorem codes_and_registerMask (w : Word) :
    opcodeOf (w &&& 0xFC00003F#32) = opcodeOf w ∧ functOf (w &&& 0xFC00003F#32) = functOf w := by
  constructor <;> (apply BitVec.eq_of_getLsbD_eq; intro i hi; interval_cases i <;> simp [opcodeOf, functOf])

/-- The mask of the other rows keeps the opcode. -/
theorem opcodeOf_and_opcodeMask (w : Word) : opcodeOf (w &&& 0xFC000000#32) = opcodeOf w := by
  apply BitVec.eq_of_getLsbD_eq; intro i hi
  interval_cases i <;> simp [opcodeOf]

/-- A word of a register-format row goes to the function map with the row's code. -/
theorem decode_of_registerRow {w value : Word} (h : w &&& 0xFC00003F#32 = value) (zero : opcodeOf value = 0#6) :
    decode w = decodeFunct { fieldExtractor w with funct := functOf value } := by
  obtain ⟨opcode, funct⟩ := codes_and_registerMask w
  rw [h] at opcode funct
  rw [decode_eq, if_pos (opcode ▸ zero), funct]
  rfl

/-- A word of another row goes to the primary map with the row's code. -/
theorem decode_of_opcodeRow {w value : Word} (h : w &&& 0xFC000000#32 = value) (nonzero : opcodeOf value ≠ 0#6) :
    decode w = decodeOpcode { fieldExtractor w with opcode := opcodeOf value } := by
  have opcode := opcodeOf_and_opcodeMask w
  rw [h] at opcode
  rw [decode_eq, if_neg (opcode ▸ nonzero), opcode]
  rfl

/-- A word that a row of the table accepts decodes to an instruction of that row. -/
theorem decode_of_accepts {r : OpcodeRow} {w : Word} (hr : r ∈ opcodeTable) (h : r.accepts w = true) :
    ∃ i, decode w = .ok i ∧ r = ⟨i.rowMask, i.rowMatch⟩ := by
  rw [accepts_iff] at h
  rcases List.mem_append.1 hr with register | opcode
  · simp only [List.mem_cons, List.not_mem_nil, or_false] at register
    rcases register with rfl | rfl | rfl | rfl | rfl | rfl | rfl | rfl | rfl <;>
      exact ⟨_, decode_of_registerRow h (by decide), rfl⟩
  · simp only [List.mem_cons, List.not_mem_nil, or_false] at opcode
    rcases opcode with rfl | rfl | rfl | rfl | rfl | rfl | rfl | rfl | rfl <;>
      exact ⟨_, decode_of_opcodeRow h (by decide), rfl⟩

/-- A word decodes exactly when a row of the table accepts it. -/
theorem decodes_iff_accepted (w : Word) : (∃ i, decode w = .ok i) ↔ ∃ r ∈ opcodeTable, r.accepts w = true := by
  constructor
  · rintro ⟨i, h⟩
    exact ⟨_, row_mem_opcodeTable i, row_accepts_of_decode h⟩
  · rintro ⟨r, hr, h⟩
    obtain ⟨i, hi, -⟩ := decode_of_accepts hr h
    exact ⟨i, hi⟩

/-- Settles O3: an accepting row is the row of what the word decodes to, so there is one at most. -/
theorem decodesExactlyTableWords : Obligations.DecodesExactlyTableWords := by
  refine ⟨decodes_iff_accepted, fun w r hr r' hr' h h' => ?unique,
    fun w i h => ⟨row_mem_opcodeTable i, row_accepts_of_decode h⟩⟩
  case unique =>
    obtain ⟨i, hi, rfl⟩ := decode_of_accepts hr h
    obtain ⟨i', hi', rfl⟩ := decode_of_accepts hr' h'
    cases hi.symm.trans hi'
    rfl

end Sys2Proof
end

section
/-! PROOFS. Ignored bits (30_encoding.md R54): a word that differs in them alone has the same fields but for the ignored one. -/

namespace Sys2Proof

/-- Only the shift amount field of a register-format word changed. -/
theorem eq_encodeR_of_shamt_ignored {fn : BitVec 6} {rs rt rd sh : BitVec 5} {w : Word}
    (h : (encodeR fn rs rt rd sh ^^^ w) &&& ~~~0x000007C0#32 = 0#32) : w = encodeR fn rs rt rd (shamtOf w) := by
  apply BitVec.eq_of_getLsbD_eq; intro i hi
  replace h := congrArg (fun v => v.getLsbD i) h
  interval_cases i <;> simp_all [encodeR, shamtOf]

/-- Only the rs field of a register-format word changed. -/
theorem eq_encodeR_of_rs_ignored {fn : BitVec 6} {rs rt rd sh : BitVec 5} {w : Word}
    (h : (encodeR fn rs rt rd sh ^^^ w) &&& ~~~0x03E00000#32 = 0#32) : w = encodeR fn (rsOf w) rt rd sh := by
  apply BitVec.eq_of_getLsbD_eq; intro i hi
  replace h := congrArg (fun v => v.getLsbD i) h
  interval_cases i <;> simp_all [encodeR, rsOf]

/-- Only the rs field of an immediate-format word changed. -/
theorem eq_encodeI_of_rs_ignored {op : BitVec 6} {rs rt : BitVec 5} {imm : BitVec 16} {w : Word}
    (h : (encodeI op rs rt imm ^^^ w) &&& ~~~0x03E00000#32 = 0#32) : w = encodeI op (rsOf w) rt imm := by
  apply BitVec.eq_of_getLsbD_eq; intro i hi
  replace h := congrArg (fun v => v.getLsbD i) h
  interval_cases i <;> simp_all [encodeI, rsOf]

/-- No bit of the word changed. -/
theorem eq_of_none_ignored {w w' : Word} (h : (w ^^^ w') &&& ~~~0x00000000#32 = 0#32) : w' = w := by
  rw [BitVec.not_zero, BitVec.and_allOnes, BitVec.xor_eq_zero_iff] at h
  exact h.symm

/-- Settles O7: the other word is that of the same constructor with the ignored field changed, which no meaning is given. -/
theorem ignoredBitsHaveNoEffect : Obligations.IgnoredBitsHaveNoEffect := by
  intro w w' i hd h
  obtain rfl := decodeThenEncode w i hd
  exact match i, hd, h with
  | .sll .., _, h =>
    ⟨_, (congrArg decode (eq_encodeR_of_rs_ignored h)).trans (decode_encodeR ..), rfl, fun _ => rfl⟩
  | .lui .., _, h =>
    ⟨_, (congrArg decode (eq_encodeI_of_rs_ignored h)).trans (decode_encodeI (by decide) ..), rfl, fun _ => rfl⟩
  | .add .., _, h | .addu .., _, h | .sub .., _, h | .subu .., _, h | .and .., _, h | .or .., _, h | .xor .., _, h
  | .slt .., _, h =>
    ⟨_, (congrArg decode (eq_encodeR_of_shamt_ignored h)).trans (decode_encodeR ..), rfl, fun _ => rfl⟩
  | .j .., hd, h | .beq .., hd, h | .bne .., hd, h | .addi .., hd, h | .addiu .., hd, h | .slti .., hd, h
  | .lw .., hd, h | .sw .., hd, h => ⟨_, (congrArg decode (eq_of_none_ignored h)).trans hd, rfl, fun _ => rfl⟩

end Sys2Proof
end

section
/-! PROOFS. Words of every family (95_test_vectors.md V1, V8 to V11). -/

namespace Sys2Proof

/-- Settles O6: the decoder run on the ten words. -/
theorem vectorWordsDecode : Obligations.VectorWordsDecode := by
  unfold Obligations.VectorWordsDecode
  decide

end Sys2Proof
end

section
/-! PROOFS. The assembler's transfers (30_encoding.md R58): the field it writes for a label or a target leads there. -/

namespace Sys2Proof.Machine

/-- An accepted label, in numbers. -/
theorem labelOk_iff {pc : Word} {label : Nat} :
    Asm.labelOk pc label = true ↔ label < 2 ^ 32 ∧ label % 4 = 0 ∧
      -32768 ≤ ((label : Int) - (Asm.next pc : Int)) / 4 ∧ ((label : Int) - (Asm.next pc : Int)) / 4 ≤ 32767 := by
  simp [Asm.labelOk, Asm.signedImmOk, and_assoc]

/-- An accepted jump target, in numbers. -/
theorem targetOk_iff {pc : Word} {target : Nat} :
    Asm.targetOk pc target = true ↔
      target < 2 ^ 32 ∧ target % 4 = 0 ∧ target / 2 ^ 28 = Asm.next pc / 2 ^ 28 := by
  simp [Asm.targetOk, and_assoc]

theorem asmNext_eq (pc : Word) : Asm.next pc = (pc.toNat + 4) % 2 ^ 32 := sequential_toNat pc

/-- The field of an accepted label is the distance in words. -/
theorem branchField_toInt {pc : Word} {label : Nat} (h : Asm.labelOk pc label = true) :
    (Asm.branchField pc label).toInt = ((label : Int) - (Asm.next pc : Int)) / 4 := by
  obtain ⟨-, -, low, high⟩ := labelOk_iff.1 h
  rw [Asm.branchField, BitVec.toInt_ofInt, Int.bmod_eq_of_le (by omega) (by omega)]

/-- From an aligned address the branch target of an accepted label's field is the label. -/
theorem branchTarget_branchField {pc : Word} {label : Nat} (ha : pc.toNat % 4 = 0) (h : Asm.labelOk pc label = true) :
    branchTarget pc (Asm.branchField pc label) = BitVec.ofNat 32 label := by
  have field := branchField_toInt h
  obtain ⟨range, multiple, -, -⟩ := labelOk_iff.1 h
  have target := branchTarget_toNat pc (Asm.branchField pc label)
  have next := asmNext_eq pc
  apply BitVec.eq_of_toNat_eq
  rw [BitVec.toNat_ofNat]
  omega

/-- The jump target of an accepted target's field is the target. -/
theorem jumpTarget_targetField {pc : Word} {target : Nat} (h : Asm.targetOk pc target = true) :
    jumpTarget pc (.ofNat 26 (target / 4)) = BitVec.ofNat 32 target := by
  obtain ⟨range, multiple, block⟩ := targetOk_iff.1 h
  rw [asmNext_eq] at block
  apply BitVec.eq_of_toNat_eq
  rw [jumpTarget_toNat, BitVec.toNat_ofNat, BitVec.toNat_ofNat]
  omega

/-- Settles O8: a taken branch and a jump are transfers to the target of the field the assembler wrote. -/
theorem assembledTransferReachesLabel : Obligations.AssembledTransferReachesLabel := by
  refine ⟨fun s rs rt label ha h equal => ?beq, fun s rs rt label ha h different => ?bne, fun s target h => ?j⟩
  case beq =>
    have accepted : Asm.labelOk s.pc label = true := (Bool.and_eq_true_iff.1 h).2
    rw [← branchTarget_branchField ha accepted, Asm.instr, exec_beq_taken equal]
    exact transferTo_transfersTo ..
  case bne =>
    have accepted : Asm.labelOk s.pc label = true := (Bool.and_eq_true_iff.1 h).2
    rw [← branchTarget_branchField ha accepted, Asm.instr, exec_bne_taken different]
    exact transferTo_transfersTo ..
  case j =>
    rw [← jumpTarget_targetField h, Asm.instr, exec_j]
    exact transferTo_transfersTo ..

end Sys2Proof.Machine
end

section
/-! PROOFS. The Control Unit beside the decoder (40_decoder.md R72, R75, R81): at each level the two lookups know the same
codes. -/

namespace Sys2Proof.Machine

/-- `FUNCT_ROM` has the row of what the function map answers, and none where that map fails. -/
theorem functRow_eq (f : Fields) : functRow f.funct = (decodeFunct f).toOption.map controlRow := by
  unfold decodeFunct
  split <;> simp_all [functRow, controlRow, Except.toOption]

/-- `MAIN_ROM` has the row of what the primary map answers, and none where that map fails. -/
theorem mainRow_eq (f : Fields) : mainRow f.opcode = (decodeOpcode f).toOption.map controlRow := by
  unfold decodeOpcode
  split <;> simp_all [mainRow, controlRow, Except.toOption]

/-- The row the Control Unit selects for a word. -/
theorem selectedRow_eq (w : Word) :
    (if (fieldExtractor w).opcode = 0#6 then functRow (fieldExtractor w).funct else mainRow (fieldExtractor w).opcode) =
      (decode w).toOption.map controlRow := by
  rw [functRow_eq, mainRow_eq, decode_eq, apply_ite Except.toOption, apply_ite (Option.map controlRow)]
  rfl

theorem controlUnit_of_decode {w : Word} {i : Instr} (h : decode w = .ok i) :
    controlUnit (fieldExtractor w) = (controlRow i, true) := by
  simp only [controlUnit, selectedRow_eq, h, Except.toOption, Option.map_some]

theorem controlUnit_of_decode_error {w : Word} {e : DecodeReject} (h : decode w = .error e) :
    controlUnit (fieldExtractor w) = (Ctrl.inert, false) := by
  simp only [controlUnit, selectedRow_eq, h, Except.toOption, Option.map_none]

/-- Settles O9: the selected row is the row of the decoded instruction, and none where the decoder fails. -/
theorem controlUnitAgreesWithDecoder : Obligations.ControlUnitAgreesWithDecoder := fun _ =>
  ⟨fun _ => controlUnit_of_decode, fun _ => controlUnit_of_decode_error⟩

end Sys2Proof.Machine
end

section
/-! PROOFS. The control table row by row (40_decoder.md R82): the Control Unit gives a row of one of the two maps or the inert
vector, so a property of its vectors is a property of these few rows. -/

namespace Sys2Proof.Machine

/-- The rows that `functRow` gives. -/
def functRows : List Ctrl := [ctrlShift, ctrlAdd, ctrlSub, ctrlAnd, ctrlOr, ctrlXor, ctrlSlt]

/-- The rows that `mainRow` gives. -/
def mainRows : List Ctrl := [ctrlJump, ctrlBeq, ctrlBne, ctrlAddImm, ctrlSltImm, ctrlLui, ctrlLoad, ctrlStore]

theorem functRow_mem {fn : BitVec 6} {c : Ctrl} (h : functRow fn = some c) : c ∈ functRows := by
  unfold functRow at h
  split at h <;> cases h <;> decide

theorem mainRow_mem {op : BitVec 6} {c : Ctrl} (h : mainRow op = some c) : c ∈ mainRows := by
  unfold mainRow at h
  split at h <;> cases h <;> decide

/-- What the Control Unit can answer: failure with the inert vector, or a row of the map that the opcode selects. -/
theorem controlUnit_cases {f : Fields} {c : Ctrl} {ok : Bool} (h : controlUnit f = (c, ok)) :
    (ok = false ∧ c = Ctrl.inert) ∨ (ok = true ∧ f.opcode = 0#6 ∧ c ∈ functRows) ∨
      (ok = true ∧ f.opcode ≠ 0#6 ∧ c ∈ mainRows) := by
  unfold controlUnit at h
  split at h
  next row selected =>
    cases h
    split at selected
    next zero => exact .inr (.inl ⟨rfl, zero, functRow_mem selected⟩)
    next nonzero => exact .inr (.inr ⟨rfl, nonzero, mainRow_mem selected⟩)
  next => cases h; exact .inl ⟨rfl, rfl⟩

/-- The invariants of 40_decoder.md R82 that speak of one vector alone. -/
abbrev RowInvariants (c : Ctrl) : Prop :=
  ¬ (c.memRead = true ∧ c.memWrite = true) ∧
  (¬ (c.aluOp = .shift ∧ c.upperImm = true) ∧ (c.aluOp = .shift → c.aluSrc = false) ∧
    (c.upperImm = true → c.aluSrc = true ∧ c.aluOp = .add ∧ c.negate = false)) ∧
  ¬ (c.jump = true ∧ c.branch = true) ∧
  (c.regWrite = true → c.memWrite = false ∧ c.branch = false ∧ c.jump = false) ∧
  ((c.memToReg = true → c.memRead = true) ∧ (c.memRead = true → c.memToReg = true ∧ c.regWrite = true)) ∧
  (c.negate = true → c.aluOp = .add ∨ c.aluOp = .slt) ∧
  (c.notEqual = true → c.branch = true) ∧
  (c.aluOp ≠ .code6 ∧ c.aluOp ≠ .code7)

theorem inert_rowInvariants : RowInvariants Ctrl.inert := by decide

/-- The rows of the function map: none is inert, and each selects `rd`. -/
theorem functRows_rowInvariants : ∀ c ∈ functRows, RowInvariants c ∧ c ≠ Ctrl.inert ∧ c.regDst = true := by decide

/-- The rows of the primary map: none is inert, and none selects `rd`. -/
theorem mainRows_rowInvariants : ∀ c ∈ mainRows, RowInvariants c ∧ c ≠ Ctrl.inert ∧ c.regDst = false := by decide

theorem controlUnit_rowInvariants {f : Fields} {c : Ctrl} {ok : Bool} (h : controlUnit f = (c, ok)) :
    RowInvariants c := by
  rcases controlUnit_cases h with ⟨-, rfl⟩ | ⟨-, -, row⟩ | ⟨-, -, row⟩
  · exact inert_rowInvariants
  · exact (functRows_rowInvariants c row).1
  · exact (mainRows_rowInvariants c row).1

theorem controlUnit_inert_iff {f : Fields} {c : Ctrl} {ok : Bool} (h : controlUnit f = (c, ok)) :
    c = Ctrl.inert ↔ ok = false := by
  rcases controlUnit_cases h with ⟨rfl, rfl⟩ | ⟨rfl, -, row⟩ | ⟨rfl, -, row⟩
  · simp
  · simp [(functRows_rowInvariants c row).2.1]
  · simp [(mainRows_rowInvariants c row).2.1]

theorem controlUnit_regDst_iff {f : Fields} {c : Ctrl} {ok : Bool} (h : controlUnit f = (c, ok)) :
    c.regDst = true ↔ f.opcode = 0#6 ∧ ok = true := by
  rcases controlUnit_cases h with ⟨rfl, rfl⟩ | ⟨rfl, zero, row⟩ | ⟨rfl, nonzero, row⟩
  · simp [Ctrl.inert]
  · simp [(functRows_rowInvariants c row).2.2, zero]
  · simp [(mainRows_rowInvariants c row).2.2, nonzero]

/-- Settles O10: eight invariants hold of each row, and the last two tell the three kinds of answer apart. -/
theorem controlTableInvariants : Obligations.ControlTableInvariants := by
  intro f c ok h
  obtain ⟨memory, shift, transfer, write, load, negate, notEqual, codes⟩ := controlUnit_rowInvariants h
  exact ⟨memory, shift, transfer, write, load, negate, notEqual, codes, controlUnit_inert_iff h, controlUnit_regDst_iff h⟩

end Sys2Proof.Machine
end

section
/-! PROOFS. The packed ROMs (40_decoder.md R78, R79): entry by entry they are the packed rows. -/

namespace Sys2Proof.Machine

/-- The ROM entry of a row, or of its absence. -/
def romEntry : Option Ctrl → RomEntry
  | some c => romWord c.pack
  | none => romEmpty

theorem functRom_entry : ∀ fn : BitVec 6, functRom.getD fn.toNat romEmpty = romEntry (functRow fn) := by decide

theorem mainRom_entry : ∀ op : BitVec 6, mainRom.getD op.toNat romEmpty = romEntry (mainRow op) := by decide

/-- The Control Unit's answer for a selected row, as a ROM entry. -/
theorem romEntry_selected (f : Fields) :
    romEntry (if f.opcode = 0#6 then functRow f.funct else mainRow f.opcode) =
      ⟨(controlUnit f).2, (controlUnit f).1.pack⟩ := by
  unfold controlUnit
  generalize (if f.opcode = 0#6 then functRow f.funct else mainRow f.opcode) = row
  cases row <;> rfl

/-- Settles O11: the selected ROM holds the packed row at the code, and the packed inert vector is the empty word. -/
theorem packedRomHoldsTheTable : Obligations.PackedRomHoldsTheTable := by
  refine ⟨rfl, rfl, fun f => ?entry⟩
  case entry => rw [← romEntry_selected, romOutput, functRom_entry, mainRom_entry, apply_ite romEntry]

end Sys2Proof.Machine
end

section
/-! PROOFS. The ALU operation by operation (41_datapath.md R103, R104, R107, R108). -/

namespace Sys2Proof.Machine

theorem negated_toNat (c : Ctrl) (b : Word) :
    (negated c b).toNat = if c.negate = true then (2 ^ 32 - b.toNat) % 2 ^ 32 else b.toNat := by
  rw [negated, apply_ite BitVec.toNat, BitVec.zero_sub, BitVec.toNat_neg]

theorem aluResult_and {c : Ctrl} (h : c.aluOp = .and) (a b : Word) : aluResult c a b = a &&& negated c b := by
  simp only [aluResult, h]

theorem aluResult_or {c : Ctrl} (h : c.aluOp = .or) (a b : Word) : aluResult c a b = a ||| negated c b := by
  simp only [aluResult, h]

theorem aluResult_xor {c : Ctrl} (h : c.aluOp = .xor) (a b : Word) : aluResult c a b = a ^^^ negated c b := by
  simp only [aluResult, h]

theorem aluResult_add {c : Ctrl} (h : c.aluOp = .add) (a b : Word) : aluResult c a b = a + negated c b := by
  simp only [aluResult, h]

theorem aluResult_slt {c : Ctrl} (h : c.aluOp = .slt) (a b : Word) : aluResult c a b = setLessThan a b := by
  simp only [aluResult, h]

theorem aluResult_shift {c : Ctrl} (h : c.aluOp = .shift) (a b : Word) :
    aluResult c a b = a <<< (b &&& 0x1F#32).toNat := by
  simp only [aluResult, h]

/-- The mask of the shift amount keeps the number modulo 32. -/
theorem and_low5_toNat (b : Word) : (b &&& 0x1F#32).toNat = b.toNat % 32 := by
  rw [BitVec.toNat_and]
  exact Nat.and_two_pow_sub_one_eq_mod b.toNat 5

/-- Settles O15: each operation's equation, read in bits or numbers. -/
theorem aluOperations : Obligations.AluOperations := by
  intro c a b
  refine ⟨negated_toNat c b, fun h k _ => ?and, fun h k _ => ?or, fun h k _ => ?xor, fun h => ?add, fun h => ?slt,
    fun h => ?shift⟩
  case and => rw [aluResult_and h, BitVec.getLsbD_and]
  case or => rw [aluResult_or h, BitVec.getLsbD_or]
  case xor => rw [aluResult_xor h, BitVec.getLsbD_xor]
  case add => rw [aluResult_add h, BitVec.toNat_add]
  case slt => rw [aluResult_slt h, setLessThan_eq]
  case shift => rw [aluResult_shift h, BitVec.toNat_shiftLeft, and_low5_toNat, Nat.shiftLeft_eq]

/-- A wrapped difference in numbers. -/
theorem sub_toNat_emod (a b : Word) : ((a - b).toNat : Int) = ((a.toNat : Int) - (b.toNat : Int)) % 2 ^ 32 := by
  have := b.isLt
  rw [BitVec.toNat_sub]
  omega

/-- The most negative word is its own negation. -/
theorem negated_mostNegative {c : Ctrl} (h : c.negate = true) : negated c 0x80000000#32 = 0x80000000#32 := by
  simp [negated, h]

/-- Settles O17: the sum with the negated operand is the difference, and only equal words have difference 0. -/
theorem negateAndAddIsSubtraction : Obligations.NegateAndAddIsSubtraction := by
  intro c a b ho hn
  refine ⟨?difference, negated_mostNegative hn, ?flag⟩
  case difference => rw [aluResult_sub ho hn, sub_toNat_emod]
  case flag =>
    rw [aluResult_sub ho hn, zeroFlag_iff]
    exact sub_eq_zero

end Sys2Proof.Machine
end

section
/-! PROOFS. The Memory Stage (41_datapath.md R110 to R112): its read and its write, each enabled or not, inside data memory or
outside. -/

namespace Sys2Proof.Machine

/-- Inside data memory the stage's read completes with the addressed word, or with the placeholder 0. -/
theorem memoryRead_inside {s : State} {addr : Word} (inside : wordIndex addr < s.dmemWords) (c : Ctrl) :
    memoryRead c s addr = some (if c.memRead = true then Memory.read s.dmem (wordIndex addr) else 0#32) := by
  rw [memoryRead, loadWord_eq, if_pos inside, apply_ite some]

theorem memoryRead_outside {c : Ctrl} {s : State} {addr : Word} (outside : ¬ wordIndex addr < s.dmemWords)
    (h : c.memRead = true) : memoryRead c s addr = none := by
  rw [memoryRead, if_pos h, loadWord_eq, if_neg outside]

theorem memoryRead_disabled {c : Ctrl} (h : c.memRead = false) (s : State) (addr : Word) :
    memoryRead c s addr = some 0#32 := by
  simp [memoryRead, h]

theorem memoryWrite_inside {c : Ctrl} {s : State} {addr : Word} (inside : wordIndex addr < s.dmemWords)
    (h : c.memWrite = true) (v : Word) :
    memoryWrite c s addr v = some { s with dmem := Memory.write s.dmem (wordIndex addr) v } := by
  rw [memoryWrite, if_pos h, storeWord_eq, if_pos inside]

theorem memoryWrite_outside {c : Ctrl} {s : State} {addr : Word} (outside : ¬ wordIndex addr < s.dmemWords)
    (h : c.memWrite = true) (v : Word) : memoryWrite c s addr v = none := by
  rw [memoryWrite, if_pos h, storeWord_eq, if_neg outside]

theorem memoryWrite_disabled {c : Ctrl} (h : c.memWrite = false) (s : State) (addr v : Word) :
    memoryWrite c s addr v = some s := by
  simp [memoryWrite, h]

/-- The stage from its two parts: both complete, the read stops, or the write stops. -/
theorem memoryStage_of_some {c : Ctrl} {s t : State} {addr v m : Word} (hr : memoryRead c s addr = some m)
    (hw : memoryWrite c s addr v = some t) : memoryStage c s addr v = .ok (m, t) := by
  simp only [memoryStage, hr, hw]

theorem memoryStage_of_read_none {c : Ctrl} {s : State} {addr : Word} (hr : memoryRead c s addr = none) (v : Word) :
    memoryStage c s addr v = .error .read := by
  simp only [memoryStage, hr]

theorem memoryStage_of_write_none {c : Ctrl} {s : State} {addr v m : Word} (hr : memoryRead c s addr = some m)
    (hw : memoryWrite c s addr v = none) : memoryStage c s addr v = .error .write := by
  simp only [memoryStage, hr, hw]

/-- Settles O18: the read before the write, each by its enable and by the index. -/
theorem memoryStageReadsThenWrites : Obligations.MemoryStageReadsThenWrites := by
  intro c s addr v
  rw [← wordIndex_eq]
  refine ⟨fun inside => ?inside, fun hr hw => ?disabled, fun outside hr => ?readOutside,
    fun outside hr hw => ?writeOutside⟩
  case inside =>
    cases hw : c.memWrite with
    | false =>
      exact ⟨s, memoryStage_of_some (memoryRead_inside inside c) (memoryWrite_disabled hw s addr v), fun _ => rfl, rfl,
        rfl, nofun, fun _ => rfl⟩
    | true =>
      exact ⟨_, memoryStage_of_some (memoryRead_inside inside c) (memoryWrite_inside inside hw v), x_dmem s _, rfl,
        rfl, fun _ => ⟨rfl, read_write s.dmem _ v⟩, nofun⟩
  case disabled => exact memoryStage_of_some (memoryRead_disabled hr s addr) (memoryWrite_disabled hw s addr v)
  case readOutside => exact memoryStage_of_read_none (memoryRead_outside (Nat.not_lt.2 outside) hr) v
  case writeOutside =>
    exact memoryStage_of_write_none (memoryRead_disabled hr s addr) (memoryWrite_outside (Nat.not_lt.2 outside) hw v)

end Sys2Proof.Machine
end

section
/-! PROOFS. The Next-PC Unit (41_datapath.md R120, R123; 10_state.md R17). -/

namespace Sys2Proof.Machine

theorem nextPc_of_jump {c : Ctrl} (h : c.jump = true) (f : Fields) (zero : Bool) (pc : Word) :
    nextPc c f zero pc = jumpTarget pc f.address :=
  if_pos h

theorem nextPc_of_taken {c : Ctrl} {zero : Bool} (hj : c.jump = false) (hb : c.branch = true)
    (ht : branchTaken c zero = true) (f : Fields) (pc : Word) :
    nextPc c f zero pc = sequential pc + f.imm32 <<< 2 := by
  simp [nextPc, hj, hb, ht]

theorem nextPc_of_not_taken {c : Ctrl} {zero : Bool} (hj : c.jump = false)
    (h : c.branch = false ∨ branchTaken c zero = false) (f : Fields) (pc : Word) :
    nextPc c f zero pc = sequential pc := by
  rcases h with h | h <;> simp [nextPc, hj, h]

/-- Settles O21: the three cases of the unit, their addresses in numbers. -/
theorem nextPcPriority : Obligations.NextPcPriority := by
  intro c f zero pc himm
  refine ⟨fun hj => nextPc_of_jump hj f zero pc, fun hj hb ht => ?taken, fun hj h => ?sequential⟩
  case taken =>
    rw [nextPc_of_taken hj hb ht, himm]
    exact branchTarget_toNat pc f.imm16
  case sequential => rw [nextPc_of_not_taken hj h, sequential_toNat]

theorem aligned_sequential {pc : Word} (h : pc.toNat % 4 = 0) : (sequential pc).toNat % 4 = 0 := by
  rw [sequential_toNat]
  omega

/-- A word shifted left by 2 is a count of words as bytes, whatever the word. -/
theorem aligned_add_shift {pc : Word} (h : pc.toNat % 4 = 0) (v : Word) :
    (sequential pc + v <<< 2).toNat % 4 = 0 := by
  have next := aligned_sequential h
  rw [BitVec.toNat_add, BitVec.toNat_shiftLeft, Nat.shiftLeft_eq]
  omega

/-- The unit keeps the alignment for every vector, field and flag. -/
theorem aligned_nextPc {pc : Word} (h : pc.toNat % 4 = 0) (c : Ctrl) (f : Fields) (zero : Bool) :
    (nextPc c f zero pc).toNat % 4 = 0 := by
  unfold nextPc
  split
  · exact (jumpTargetAssembly pc f.address).2
  · split
    · exact aligned_add_shift h f.imm32
    · exact aligned_sequential h

/-- A step at any other address is refused. -/
theorem step_of_not_aligned {s : State} (h : s.pc.toNat % 4 ≠ 0) : step s = .refused .launchPcMisaligned := by
  have misaligned : ¬ aligned s.pc = true := fun ha => h ((aligned_iff s.pc).1 ha)
  simp only [step, fetchDecode, if_neg misaligned]

/-- Settles O22: each of the unit's three addresses is a multiple of 4. -/
theorem nextPcStaysAligned : Obligations.NextPcStaysAligned :=
  ⟨fun c f zero _ h => aligned_nextPc h c f zero, fun _ => step_of_not_aligned⟩

end Sys2Proof.Machine
end

section
/-! PROOFS. A cycle that commits (41_datapath.md R130, R131): which vector drove it, and what its stages made of the state. -/

namespace Sys2Proof.Machine

/-- The ALU result of a cycle. -/
def cycleAlu (c : Ctrl) (f : Fields) (s : State) : Word :=
  aluResult c (selectA c (s.x f.rs) (s.x f.rt)) (selectB c f (s.x f.rt))

/-- The later stages of a cycle that commits: the Memory Stage completed, and the Write-Back and Next-PC Units set the rest. -/
theorem laterStages_next {c : Ctrl} {f : Fields} {s t : State} (h : laterStages c f s = .next t) :
    ∃ m u, memoryStage c s (cycleAlu c f s) (s.x f.rt) = .ok (m, u) ∧
      t = (writeBack c f (cycleAlu c f s) m u).setPc (nextPc c f (zeroFlag (cycleAlu c f s)) s.pc) := by
  unfold laterStages at h
  dsimp only at h
  split at h
  · cases h
  next m u stage =>
    cases h
    exact ⟨m, u, stage, rfl⟩

/-- A word's cycle that commits: the Control Unit succeeded, and its vector drove the later stages. -/
theorem cycleWord_next {s t : State} {w : Word} (h : cycleWord s w = .next t) :
    ∃ c, controlUnit (fieldExtractor w) = (c, true) ∧ laterStages c (fieldExtractor w) s = .next t := by
  unfold cycleWord at h
  dsimp only at h
  split at h
  · cases h
  next c selected => exact ⟨c, selected, h⟩

/-- The word a completed read gives. -/
theorem memoryRead_some {c : Ctrl} {s : State} {addr m : Word} (h : memoryRead c s addr = some m) :
    m = if c.memRead = true then Memory.read s.dmem (wordIndex addr) else 0#32 := by
  cases enabled : c.memRead with
  | false =>
    rw [memoryRead_disabled enabled] at h
    cases h
    rfl
  | true =>
    rw [memoryRead, if_pos enabled, loadWord_eq] at h
    split at h
    · cases h; rfl
    · cases h

/-- Data memory after a completed write, word by word. -/
theorem memoryWrite_read {c : Ctrl} {s t : State} {addr v : Word} (h : memoryWrite c s addr v = some t) (k : Nat) :
    Memory.read t.dmem k =
      if c.memWrite = true ∧ k = wordIndex addr then v else Memory.read s.dmem k := by
  cases enabled : c.memWrite with
  | false =>
    rw [memoryWrite_disabled enabled] at h
    cases h
    simp
  | true =>
    rw [memoryWrite, if_pos enabled, storeWord_eq] at h
    split at h
    · cases h
      simp [read_write]
    · cases h

/-- The Memory Stage changes data memory at most: not `pc`, not instruction memory, not a size. -/
theorem memoryWrite_frame {c : Ctrl} {s t : State} {addr v : Word} (h : memoryWrite c s addr v = some t) :
    SameRegs s t ∧ t.dmemWords = s.dmemWords ∧ t.imem = s.imem := by
  rcases memoryWrite_some h with rfl | rfl
  · exact ⟨fun _ => rfl, rfl, rfl⟩
  · exact ⟨x_dmem s _, rfl, rfl⟩

/-- What any register reads after the Write-Back Unit, its enable as the boundary shows it. -/
theorem x_writeBack_enabled (c : Ctrl) (f : Fields) (alu mem : Word) (s : State) (r : RegIdx) :
    (writeBack c f alu mem s).x r =
      if (c.regWrite && writeBackDest c f != 0#5) = true ∧ r = writeBackDest c f then
        (if c.memToReg = true then mem else alu)
      else s.x r := by
  cases h : c.regWrite with
  | false => simp [writeBack_of_not_regWrite h]
  | true =>
    rw [writeBack_of_regWrite h, x_writeReg]
    simp [and_comm]

/-- Settles O24: the boundary shows the stages' own values, and `dmem_rdata` is the word that the Memory Stage reads. -/
theorem signalsSayWhatIsCommitted : Obligations.SignalsSayWhatIsCommitted := by
  intro s t w rdata h hdata
  obtain ⟨c, hc, hlater⟩ := cycleWord_next h
  obtain ⟨m, u, hstage, rfl⟩ := laterStages_next hlater
  obtain ⟨hread, hwrite⟩ := memoryStage_ok hstage
  obtain ⟨sameRegs, sameSize, sameImem⟩ := memoryWrite_frame hwrite
  obtain ⟨-, ⟨size, data⟩, image⟩ := writeBack_frame c (fieldExtractor w) (cycleAlu c (fieldExtractor w) s) m u
  have signals := boundarySignals_of (s := s) (rdata := rdata) rfl hc (rfl : _ = cycleAlu c (fieldExtractor w) s)
  rw [signals] at hdata ⊢
  simp only [dmemIndex_toNat] at hdata ⊢
  have memResult : m = if c.memRead = true then rdata else 0#32 := by rw [memoryRead_some hread, hdata]
  obtain ⟨-, -, -, writesRegister, -⟩ := controlUnit_rowInvariants hc
  refine ⟨trivial, rfl, fun r => ?registers, fun k => ?data, ?exclusive, ?notZero, size.trans sameSize, ?image⟩
  case registers => rw [x_setPc, x_writeBack_enabled, sameRegs r, memResult]
  case data => rw [setPc_dmem, data k, memoryWrite_read hwrite]
  case exclusive =>
    rintro ⟨writes, stores⟩
    obtain ⟨noStore, -, -⟩ := writesRegister (Bool.and_eq_true_iff.1 writes).1
    exact Bool.false_ne_true (noStore.symm.trans stores)
  case notZero => simp
  case image => exact Eq.trans image sameImem

end Sys2Proof.Machine
end

section
/-! PROOFS. The inert vector and the open cells of the control table (60_exceptions.md R192, 40_decoder.md R76). -/

namespace Sys2Proof.Machine

/-- With the inert vector no enable is set and neither jump nor branch: the later stages are a transfer to `pc + 4`. -/
theorem laterStages_inert (f : Fields) (s : State) :
    laterStages Ctrl.inert f s = transferTo s (sequential s.pc) := rfl

/-- Settles O25: the inert vector's cycle is a transfer, and a failure of the Control Unit ends the cycle before it. -/
theorem inertVectorIsNotRun : Obligations.InertVectorIsNotRun := by
  refine ⟨fun f s => ?inert, fun s w h => ?stops⟩
  case inert =>
    rw [laterStages_inert]
    exact transferTo_transfersTo ..
  case stops =>
    unfold cycleWord
    dsimp only
    split
    next => rfl
    next succeeded => simp [succeeded] at h

/-- Settles O13: a jump leaves the ALU's result unread, and the unit that reads the other cells does nothing without
`regWrite`. -/
theorem openCellsHaveNoEffect : Obligations.OpenCellsHaveNoEffect := by
  refine ⟨fun a n d o f s => ?jump, fun m d f s => ⟨?beq, ?bne, ?store⟩⟩
  case jump => rfl
  case beq => rfl
  case bne => rfl
  case store => rfl

end Sys2Proof.Machine
end

section
/-! PROOFS. The two descriptions of the machine are one (41_datapath.md R130 against 42_rformat.md to 45_load_store.md): the
later stages, driven by an instruction's row, do what the instruction does. -/

namespace Sys2Proof.Machine

/-- A 5-bit shift amount passes the mask of the shift operation as it is. -/
theorem shiftAmount_low5 (shamt : BitVec 5) : (shiftAmount shamt &&& 0x1F#32).toNat = shamt.toNat := by
  rw [and_low5_toNat, shiftAmount_toNat, Nat.mod_eq_of_lt shamt.isLt]

theorem laterStages_shift (f : Fields) (s : State) :
    laterStages ctrlShift f s = execSll f.rt f.rd f.shamt s :=
  congrArg (fun k => writeAndAdvance s f.rd (s.x f.rt <<< k)) (shiftAmount_low5 f.shamt)

/-- The Next-PC Unit of a branch row whose decision is `P`. -/
theorem nextPc_of_branch {c : Ctrl} {f : Fields} {zero : Bool} {P : Prop} [Decidable P] (hj : c.jump = false)
    (hb : c.branch = true) (himm : f.imm32 = sext32 f.imm16) (decision : branchTaken c zero = true ↔ P) (pc : Word) :
    nextPc c f zero pc = if P then branchTarget pc f.imm16 else sequential pc := by
  rw [← if_congr decision rfl rfl]
  simp [nextPc, hj, hb, himm, branchTarget, branchOffset]

theorem laterStages_beq {f : Fields} (himm : f.imm32 = sext32 f.imm16) (s : State) :
    laterStages ctrlBeq f s = execBeq f.rs f.rt f.imm16 s :=
  congrArg (transferTo s) (nextPc_of_branch rfl rfl himm (branchDecision.2.2 f (s.x f.rs) (s.x f.rt)).1 s.pc)

theorem laterStages_bne {f : Fields} (himm : f.imm32 = sext32 f.imm16) (s : State) :
    laterStages ctrlBne f s = execBne f.rs f.rt f.imm16 s :=
  congrArg (transferTo s) (nextPc_of_branch rfl rfl himm (branchDecision.2.2 f (s.x f.rs) (s.x f.rt)).2 s.pc)

/-- A vector that adds the immediate to the first register forms the effective address. -/
theorem aluResult_effectiveAddress {c : Ctrl} {f : Fields} (ho : c.aluOp = .add) (hn : c.negate = false)
    (hu : c.upperImm = false) (hs : c.aluSrc = true) (himm : f.imm32 = sext32 f.imm16) (rs rt : Word) :
    aluResult c (selectA c rs rt) (selectB c f rt) = effectiveAddress rs f.imm16 := by
  have noShift : c.aluOp ≠ .shift := by rw [ho]; decide
  rw [aluResult_add ho, selectA_of_neither hu noShift, selectB_of_neither noShift hu, if_pos hs, himm, negated, hn]
  rfl

theorem laterStages_load {f : Fields} (himm : f.imm32 = sext32 f.imm16) (s : State) :
    laterStages ctrlLoad f s = execLw f.rs f.rt f.imm16 s := by
  have alu := aluResult_effectiveAddress (c := ctrlLoad) rfl rfl rfl rfl himm (s.x f.rs) (s.x f.rt)
  simp only [laterStages, alu, execLw]
  by_cases inside : wordIndex (effectiveAddress (s.x f.rs) f.imm16) < s.dmemWords
  · rw [loadAndAdvance_inside inside,
      memoryStage_of_some (memoryRead_inside inside ctrlLoad) (memoryWrite_disabled rfl s _ _)]
    rfl
  · rw [loadAndAdvance_outside inside, memoryStage_of_read_none (memoryRead_outside inside rfl)]

theorem laterStages_store {f : Fields} (himm : f.imm32 = sext32 f.imm16) (s : State) :
    laterStages ctrlStore f s = execSw f.rs f.rt f.imm16 s := by
  have alu := aluResult_effectiveAddress (c := ctrlStore) rfl rfl rfl rfl himm (s.x f.rs) (s.x f.rt)
  simp only [laterStages, alu, execSw]
  by_cases inside : wordIndex (effectiveAddress (s.x f.rs) f.imm16) < s.dmemWords
  · rw [storeAndAdvance_inside inside,
      memoryStage_of_some (memoryRead_inside inside ctrlStore) (memoryWrite_inside inside rfl _)]
    rfl
  · rw [storeAndAdvance_outside inside,
      memoryStage_of_write_none (memoryRead_disabled rfl s _) (memoryWrite_outside inside rfl _)]

/-- The register format: the row of the function map's answer drives the stages to that answer's meaning. -/
theorem laterStages_of_decodeFunct {f : Fields} {i : Instr} (h : decodeFunct f = .ok i) (s : State) :
    laterStages (controlRow i) f s = exec i s := by
  unfold decodeFunct at h
  split at h <;> cases h
  case h_1 => exact laterStages_shift f s  -- sll
  case h_5 => exact exec_sub_eq_exec_subu f.rs f.rt f.rd f.shamt s  -- subu
  all_goals rfl  -- the ALU's operation is the instruction's own

/-- The other two formats: the row of the primary map's answer drives the stages to that answer's meaning. -/
theorem laterStages_of_decodeOpcode {f : Fields} {i : Instr} (himm : f.imm32 = sext32 f.imm16)
    (h : decodeOpcode f = .ok i) (s : State) : laterStages (controlRow i) f s = exec i s := by
  unfold decodeOpcode at h
  split at h <;> cases h
  case h_1 => rfl  -- j
  case h_2 => exact laterStages_beq himm s  -- beq
  case h_3 => exact laterStages_bne himm s  -- bne
  case h_4 => exact congrArg (fun v => writeAndAdvance s f.rt (s.x f.rs + v)) himm  -- addi
  case h_5 => exact congrArg (fun v => writeAndAdvance s f.rt (s.x f.rs + v)) himm  -- addiu
  case h_6 => exact congrArg (fun v => writeAndAdvance s f.rt (setLessThan (s.x f.rs) v)) himm  -- slti
  case h_7 => exact congrArg (writeAndAdvance s f.rt) (BitVec.zero_add (upperImmediate f.imm16))  -- lui
  case h_8 => exact laterStages_load himm s  -- lw
  case h_9 => exact laterStages_store himm s  -- sw

theorem laterStages_of_decode {w : Word} {i : Instr} (h : decode w = .ok i) (s : State) :
    laterStages (controlRow i) (fieldExtractor w) s = exec i s := by
  rw [decode_eq] at h
  split at h
  · exact laterStages_of_decodeFunct h s
  · exact laterStages_of_decodeOpcode rfl h s

/-- The cycle of a word that decodes is the instruction's meaning. -/
theorem cycleWord_of_decode {w : Word} {i : Instr} (h : decode w = .ok i) (s : State) : cycleWord s w = exec i s := by
  simp only [cycleWord, controlUnit_of_decode h, laterStages_of_decode h]

/-- The cycle of a word that does not decode is the Decode Failure. -/
theorem cycleWord_of_decode_error {w : Word} {e : DecodeReject} (h : decode w = .error e) (s : State) :
    cycleWord s w = .fault (.decodeFailure s.pc w) := by
  simp only [cycleWord, controlUnit_of_decode_error h]

/-! ### One step, by what the fetch and the decoder find -/

theorem step_of_no_word {s : State} (ha : aligned s.pc = true) (hf : s.fetch = none) :
    step s = .fault (.fetchOutOfRange s.pc) := by
  simp only [step, fetchDecode, if_pos ha, hf]

theorem step_of_decode_error {s : State} {w : Word} {e : DecodeReject} (ha : aligned s.pc = true)
    (hf : s.fetch = some w) (hd : decode w = .error e) : step s = .fault (.decodeFailure s.pc w) := by
  simp only [step, fetchDecode, if_pos ha, hf, decodeAt, hd]

theorem step_of_decode {s : State} {w : Word} {i : Instr} (ha : aligned s.pc = true) (hf : s.fetch = some w)
    (hd : decode w = .ok i) : step s = exec i s :=
  step_of_fetchDecode (fetchDecode_instr.2 ⟨ha, w, hf, hd⟩)

/-- Settles O26: without a word both stop at the fetch, without an instruction both stop at the decoder, and an
instruction's meaning is the later stages driven by its row. -/
theorem stepIsTheDatapathCycle : Obligations.StepIsTheDatapathCycle := by
  intro s h
  have ha := (aligned_iff s.pc).2 h
  cases hf : s.fetch with
  | none => rw [step_of_no_word ha hf]; simp only [cycle, hf]
  | some w =>
    have cycles : cycle s = cycleWord s w := by simp only [cycle, hf]
    cases hd : decode w with
    | error e => rw [cycles, step_of_decode_error ha hf hd, cycleWord_of_decode_error hd]
    | ok i => rw [cycles, step_of_decode ha hf hd, cycleWord_of_decode hd]

end Sys2Proof.Machine
end

section
/-! PROOFS. The states a run can reach (10_state.md R17, 20_memory.md section 5): every step keeps the terms of `Inv`, and a
launch with legal parameters has them. -/

namespace Sys2Proof.Machine

/-- Every instruction sets `pc` to an address that the Next-PC Unit gives, and these are aligned. -/
theorem step_keeps_aligned {s t : State} (ha : aligned s.pc = true) (h : step s = .next t) : aligned t.pc = true := by
  rw [aligned_iff] at ha ⊢
  obtain ⟨i, hi, he⟩ := step_next h
  obtain ⟨-, w, -, hd⟩ := fetchDecode_instr.1 hi
  rw [← laterStages_of_decode hd] at he
  obtain ⟨m, u, -, rfl⟩ := laterStages_next he
  exact aligned_nextPc ha _ _ _

/-- Data memory is written at an index inside it, if at all, and neither memory changes its size. -/
theorem exec_memories {i : Instr} {s t : State} (h : exec i s = .next t) :
    t.dmemWords = s.dmemWords ∧ t.imem = s.imem ∧
      (t.dmem = s.dmem ∨ ∃ k v, k < s.dmemWords ∧ t.dmem = Memory.write s.dmem k v) := by
  rcases exec_next h with ⟨d, v, -, -, rfl⟩ | ⟨a, -, -, rfl⟩ | ⟨rs, rt, imm, -, inside, rfl⟩
  · exact ⟨by simp, by simp, .inl (by simp)⟩
  · exact ⟨rfl, rfl, .inl rfl⟩
  · exact ⟨rfl, rfl, .inr ⟨_, _, inside, rfl⟩⟩

/-- A write inside data memory lists no word outside it. -/
theorem inside_write {m : Memory} {n k : Nat} (hm : ∀ c ∈ m, c.1 < n) (hk : k < n) (v : Word) :
    ∀ c ∈ Memory.write m k v, c.1 < n := by
  intro c hc
  rcases mem_write hc with hc | hc
  · exact hc ▸ hk
  · exact hm c hc

/-- Settles O27: the Next-PC Unit keeps the alignment, and a store keeps the canonical form and stays inside. -/
theorem everyStepKeepsInvariant : Obligations.EveryStepKeepsInvariant := by
  intro s t inv h
  obtain ⟨i, -, he⟩ := step_next h
  obtain ⟨size, image, data⟩ := exec_memories he
  refine ⟨step_keeps_aligned inv.pcAligned h, ?canonical, ?inside, size ▸ inv.dataSize, image ▸ inv.imemSize⟩
  case canonical =>
    rcases data with data | ⟨k, v, -, data⟩
    · exact data ▸ inv.canonical
    · exact data ▸ wf_write inv.canonical k v
  case inside =>
    rw [size]
    rcases data with data | ⟨k, v, hk, data⟩
    · exact data ▸ inv.inside
    · exact data ▸ inside_write inv.inside hk v

/-- A launch with parameters in range. -/
theorem inv_launch {image : List Word} {n : Nat} {m : Memory} (himage : image.length ≤ 2 ^ 30) (hlow : 1 ≤ n)
    (hhigh : n ≤ 2 ^ 30) (hm : Memory.wf m) (inside : ∀ c ∈ m, c.1 < n) : Inv (State.launch image n m) where
  pcAligned := by rw [launch_pc]; decide
  canonical := hm
  inside := inside
  dataSize := ⟨hlow, hhigh⟩
  imemSize := himage

/-- Settles O28: reset is the launch with no program, 1024 data words and no initial data. -/
theorem launchMeetsInvariant : Obligations.LaunchMeetsInvariant :=
  ⟨inv_launch (by decide) (by decide) (by decide) wf_nil nofun, fun _ _ _ => inv_launch⟩

/-- Settles O29: the reset values, and the fetch at the reset `pc`. -/
theorem launchState : Obligations.LaunchState := by
  intro image n m
  have first : (State.launch image n m).fetch = image[0]? := by
    rw [fetch_eq, launch_imem, launch_pc, wordIndex_eq]
    rfl
  exact ⟨x_launch image n m, launch_pc image n m, fun i => by rw [launch_dmem], launch_imem image n m, first, rfl⟩

end Sys2Proof.Machine
end

section
/-! PROOFS. What a step runs and when it stops (41_datapath.md R130, 60_exceptions.md R190, R196). -/

namespace Sys2Proof.Machine

/-- An instruction's word passes the host's numbering unchanged. -/
theorem tableWord_toNat (w : Word) : tableWord 32 w.toNat = w := by
  rw [tableWord, Nat.mod_eq_of_lt w.isLt, BitVec.ofNat_toNat, BitVec.setWidth_eq]

/-- The fetch in numbers. -/
theorem fetch_eq_div (s : State) : s.fetch = s.imem[s.pc.toNat / 4]? := by
  rw [fetch_eq, wordIndex_eq]

/-- Settles O30: the word at an aligned `pc`, and a placed word in particular, is fetched and decoded, and its meaning is the
step. -/
theorem stepRunsDecodedInstr : Obligations.StepRunsDecodedInstr := by
  refine ⟨fun s w i ha hw hd => ?there, fun s i ha => ?placed⟩
  case there => exact step_of_decode ((aligned_iff _).2 ha) ((fetch_eq_div s).trans hw) hd
  case placed =>
    have word := fetch_withFetchWord s 32 (encode i).toNat
    rw [tableWord_toNat] at word
    exact step_of_decode ((aligned_iff _).2 ha) word (encodeThenDecode i)

/-- lw outside data memory stops (60_exceptions.md R193). -/
theorem exec_lw_outside {rs : RegIdx} {imm : BitVec 16} {s : State}
    (h : ¬ wordIndex (effectiveAddress (s.x rs) imm) < s.dmemWords) (rt : RegIdx) :
    exec (.lw rs rt imm) s = .fault (.dataAccessOutOfRange s.pc (effectiveAddress (s.x rs) imm) .read) :=
  loadAndAdvance_outside h

/-- sw outside data memory stops (60_exceptions.md R193). -/
theorem exec_sw_outside {rs : RegIdx} {imm : BitVec 16} {s : State}
    (h : ¬ wordIndex (effectiveAddress (s.x rs) imm) < s.dmemWords) (rt : RegIdx) :
    exec (.sw rs rt imm) s = .fault (.dataAccessOutOfRange s.pc (effectiveAddress (s.x rs) imm) .write) :=
  storeAndAdvance_outside h

/-- An instruction completes, or it is lw or sw at an address outside data memory and stops there. -/
theorem exec_outcome (i : Instr) (s : State) :
    (∃ t, exec i s = .next t) ∨
    ∃ rs rt imm kind, ((kind = .read ∧ i = .lw rs rt imm) ∨ (kind = .write ∧ i = .sw rs rt imm)) ∧
      ¬ wordIndex (effectiveAddress (s.x rs) imm) < s.dmemWords ∧
      exec i s = .fault (.dataAccessOutOfRange s.pc (effectiveAddress (s.x rs) imm) kind) := by
  rcases exec_shape i s with ⟨d, v, -, -, he⟩ | ⟨a, -, -, he⟩ | ⟨rs, rt, imm, rfl⟩ | ⟨rs, rt, imm, rfl⟩
  · exact .inl ⟨_, he⟩
  · exact .inl ⟨_, he⟩
  · by_cases inside : wordIndex (effectiveAddress (s.x rs) imm) < s.dmemWords
    · exact .inl ⟨_, loadAndAdvance_inside inside⟩
    · exact .inr ⟨rs, rt, imm, .read, .inl ⟨rfl, rfl⟩, inside, exec_lw_outside inside rt⟩
  · by_cases inside : wordIndex (effectiveAddress (s.x rs) imm) < s.dmemWords
    · exact .inl ⟨_, storeAndAdvance_inside inside⟩
    · exact .inr ⟨rs, rt, imm, .write, .inr ⟨rfl, rfl⟩, inside, exec_sw_outside inside rt⟩

/-- The data access with which a word's instruction stops: lw reads and sw writes, outside data memory. -/
def StopsAtData (s : State) (w a : Word) (kind : AccessKind) : Prop :=
  ∃ rs rt imm, ((kind = .read ∧ decode w = .ok (.lw rs rt imm)) ∨ (kind = .write ∧ decode w = .ok (.sw rs rt imm))) ∧
    a = effectiveAddress (s.x rs) imm ∧ s.dmemWords ≤ a.toNat / 4

theorem step_of_stopsAtData {s : State} {w a : Word} {kind : AccessKind} (ha : aligned s.pc = true)
    (hf : s.fetch = some w) (h : StopsAtData s w a kind) : step s = .fault (.dataAccessOutOfRange s.pc a kind) := by
  obtain ⟨rs, rt, imm, access, rfl, outside⟩ := h
  rw [← wordIndex_eq] at outside
  rcases access with ⟨rfl, hd⟩ | ⟨rfl, hd⟩
  · rw [step_of_decode ha hf hd, exec_lw_outside (Nat.not_lt.2 outside)]
  · rw [step_of_decode ha hf hd, exec_sw_outside (Nat.not_lt.2 outside)]

/-- A decoded instruction completes, or stops at its data access. -/
theorem exec_of_decode_outcome {s : State} {w : Word} {i : Instr} (hd : decode w = .ok i) :
    (∃ t, exec i s = .next t) ∨
      ∃ a kind, StopsAtData s w a kind ∧ exec i s = .fault (.dataAccessOutOfRange s.pc a kind) := by
  rcases exec_outcome i s with next | ⟨rs, rt, imm, kind, access, outside, he⟩
  · exact .inl next
  · rw [wordIndex_eq] at outside
    refine .inr ⟨_, kind, ⟨rs, rt, imm, ?_, rfl, Nat.not_lt.1 outside⟩, he⟩
    rcases access with ⟨rfl, rfl⟩ | ⟨rfl, rfl⟩
    · exact .inl ⟨rfl, hd⟩
    · exact .inr ⟨rfl, hd⟩

/-- The outcomes of a step at an aligned `pc`, in the order of the checks: fetch, decode, data access. -/
theorem step_outcome {s : State} (ha : aligned s.pc = true) :
    (s.fetch = none ∧ step s = .fault (.fetchOutOfRange s.pc)) ∨
    (∃ w e, s.fetch = some w ∧ decode w = .error e ∧ step s = .fault (.decodeFailure s.pc w)) ∨
    (∃ w a kind, s.fetch = some w ∧ StopsAtData s w a kind ∧ step s = .fault (.dataAccessOutOfRange s.pc a kind)) ∨
    ∃ t, step s = .next t := by
  cases hf : s.fetch with
  | none => exact .inl ⟨rfl, step_of_no_word ha hf⟩
  | some w =>
    cases hd : decode w with
    | error e => exact .inr (.inl ⟨w, e, rfl, hd, step_of_decode_error ha hf hd⟩)
    | ok i =>
      rw [step_of_decode ha hf hd]
      rcases exec_of_decode_outcome (s := s) hd with next | ⟨a, kind, stops, he⟩
      · exact .inr (.inr (.inr next))
      · exact .inr (.inr (.inl ⟨w, a, kind, rfl, stops, he⟩))

/-- The faults of a step, each with the check that finds it. -/
theorem step_fault_iff {s : State} (ha : aligned s.pc = true) (r : Fault) :
    step s = .fault r ↔
      (s.fetch = none ∧ r = .fetchOutOfRange s.pc) ∨
      (∃ w e, s.fetch = some w ∧ decode w = .error e ∧ r = .decodeFailure s.pc w) ∨
      ∃ w a kind, s.fetch = some w ∧ StopsAtData s w a kind ∧ r = .dataAccessOutOfRange s.pc a kind := by
  constructor
  · intro h
    rcases step_outcome ha with ⟨hf, hs⟩ | ⟨w, e, hf, hd, hs⟩ | ⟨w, a, kind, hf, stops, hs⟩ | ⟨t, hs⟩ <;>
      cases h.symm.trans hs
    · exact .inl ⟨hf, rfl⟩
    · exact .inr (.inl ⟨w, e, hf, hd, rfl⟩)
    · exact .inr (.inr ⟨w, a, kind, hf, stops, rfl⟩)
  · rintro (⟨hf, rfl⟩ | ⟨w, e, hf, hd, rfl⟩ | ⟨w, a, kind, hf, stops, rfl⟩)
    · exact step_of_no_word ha hf
    · exact step_of_decode_error ha hf hd
    · exact step_of_stopsAtData ha hf stops

/-- A word fails to decode exactly when no row of the table accepts it. -/
theorem decode_error_iff (w : Word) : (∃ e, decode w = .error e) ↔ ∀ r ∈ opcodeTable, r.accepts w = false := by
  have rejected : (∃ e, decode w = .error e) ↔ ¬ ∃ i, decode w = .ok i := by cases decode w <;> simp
  rw [rejected, decodes_iff_accepted]
  simp

/-- Settles O31: the faults of a step, each told from the others by its name. -/
theorem whenAStepStops : Obligations.WhenAStepStops := by
  intro s h
  have ha := (aligned_iff s.pc).2 h
  rw [← fetch_eq_div]
  refine ⟨fun r hr => ?refused, ?fetch, fun w => ?decode, fun a k => ?data, fun r hr => ?others⟩
  case refused =>
    rcases step_outcome ha with ⟨-, hs⟩ | ⟨w, e, -, -, hs⟩ | ⟨w, a, kind, -, -, hs⟩ | ⟨t, hs⟩ <;>
      cases hr.symm.trans hs
  case fetch =>
    rw [step_fault_iff ha, fetch_eq_div, List.getElem?_eq_none_iff]
    simp
  case decode =>
    rw [step_fault_iff ha, ← decode_error_iff]
    simp
  case data =>
    have stops : step s = .fault (.dataAccessOutOfRange s.pc a k) ↔ ∃ w, s.fetch = some w ∧ StopsAtData s w a k := by
      rw [step_fault_iff ha]
      simp
    simp only [stops, StopsAtData, exists_and_left]
  case others =>
    rcases (step_fault_iff ha r).1 hr with ⟨-, rfl⟩ | ⟨w, e, -, -, rfl⟩ | ⟨w, a, kind, -, -, rfl⟩
    · exact .inl rfl
    · exact .inr (.inl ⟨w, rfl⟩)
    · exact .inr (.inr ⟨a, kind, rfl⟩)

end Sys2Proof.Machine
end

section
/-! PROOFS. What every instruction leaves unchanged (10_state.md R14, 41_datapath.md R131). -/

namespace Sys2Proof.Machine

/-- A register that is not the destination reads as before. -/
theorem exec_x_elsewhere {i : Instr} {s t : State} {r : RegIdx} (h : exec i s = .next t)
    (hr : destination? i ≠ some r) : t.x r = s.x r := by
  rcases exec_next h with ⟨d, v, hd, -, rfl⟩ | ⟨a, -, -, rfl⟩ | ⟨rs, rt, imm, -, -, rfl⟩
  · have other : ¬ (r = d ∧ d ≠ 0#5) := fun ⟨e, _⟩ => hr (e ▸ hd)
    rw [x_setPc, x_writeReg, if_neg other]
  · exact x_setPc s a r
  · rfl

/-- No instruction both writes a register and stores. -/
theorem destination_or_store (i : Instr) (s : State) : destination? i = none ∨ storedIndex? i s = none := by
  rcases exec_shape i s with ⟨d, v, -, hk, -⟩ | ⟨a, hd, -, -⟩ | ⟨rs, rt, imm, rfl⟩ | ⟨rs, rt, imm, rfl⟩
  · exact .inr hk
  · exact .inl hd
  · exact .inr rfl
  · exact .inl rfl

/-- Settles O33: the frame of each next state there is. -/
theorem frameOfEveryInstr : Obligations.FrameOfEveryInstr := by
  intro i s t h
  obtain ⟨size, image, -⟩ := exec_memories h
  exact ⟨fun r => exec_x_elsewhere h, x_zero t, fun k => exec_read_elsewhere h, destination_or_store i s, image, size⟩

end Sys2Proof.Machine
end

section
/-! PROOFS. A load after a store (45_load_store.md R183). -/

namespace Sys2Proof.Machine

/-- Instructions in sequence leave the size of data memory as it was. -/
theorem dmemWords_of_keepsWord {k : Nat} {s t : State} (h : KeepsWord k s t) : t.dmemWords = s.dmemWords := by
  induction h with
  | refl => rfl
  | tail i _ run _ ih => rw [(exec_memories run).1, ih]

/-- Settles O36: the store was inside data memory, the size stays, and the word keeps what was stored. -/
theorem storeThenLoadRoundTrips : Obligations.StoreThenLoadRoundTrips := by
  intro rs rt rs' rt' off off' s t u h kept index
  obtain ⟨size, updated⟩ := exec_sw_dataUpdated h
  have inside : wordIndex (effectiveAddress (u.x rs') off') < u.dmemWords := by
    rw [index, dmemWords_of_keepsWord kept, size]
    exact (storeAndAdvance_next h).1
  have loaded : Memory.read u.dmem (wordIndex (effectiveAddress (u.x rs') off')) = s.x rt := by
    rw [index, read_of_keepsWord kept, updated, if_pos rfl]
  exact loaded ▸ exec_lw_writesOnly inside

end Sys2Proof.Machine
end

section
/-! PROOFS. Writes to register 0 (10_state.md R12). -/

namespace Sys2Proof.Machine

/-- Writing register 0 and going on is a transfer to `pc + 4`. -/
theorem writeAndAdvance_zero (s : State) (v : Word) : writeAndAdvance s 0#5 v = transferTo s (sequential s.pc) := by
  rw [writeAndAdvance, writeReg_zero, transferTo]

/-- lw into register 0 makes its access and no write. -/
theorem exec_lw_zero_inside {rs : RegIdx} {imm : BitVec 16} {s : State}
    (h : wordIndex (effectiveAddress (s.x rs) imm) < s.dmemWords) :
    exec (.lw rs 0#5 imm) s = transferTo s (sequential s.pc) := by
  rw [exec_lw, loadAndAdvance_inside h, writeAndAdvance_zero]

/-- Settles O38: a discarded write leaves a transfer to `pc + 4`, and the access of lw is made before it. -/
theorem writesToZeroAreDiscarded : Obligations.WritesToZeroAreDiscarded := by
  refine ⟨writeReg_zero, fun i s hd hm => ?other, fun s rs imm => ?load⟩
  case other =>
    rcases exec_shape i s with ⟨d, v, hd', -, he⟩ | ⟨a, hd', -, -⟩ | ⟨rs, rt, imm, rfl⟩ | ⟨rs, rt, imm, rfl⟩
    · cases hd.symm.trans hd'
      rw [he, writeAndAdvance_zero]
      exact transferTo_transfersTo ..
    · cases hd.symm.trans hd'
    · cases hm
    · cases hm
  case load =>
    split
    next inside =>
      rw [exec_lw_zero_inside inside]
      exact transferTo_transfersTo ..
    next outside => exact exec_lw_outside outside 0#5

/-- Settles O60: neither access completes outside data memory. -/
theorem accessOutsideStops : Obligations.AccessOutsideStops := fun _ rt _ _ outside =>
  ⟨exec_lw_outside (Nat.not_lt.2 outside) rt, exec_sw_outside (Nat.not_lt.2 outside) rt⟩

end Sys2Proof.Machine
end

section
/-! PROOFS. Data addresses and their words (20_memory.md R31, R34; 45_load_store.md R182). -/

namespace Sys2Proof.Machine

/-- Settles O43: the address, its index and the bound of the index. -/
theorem effectiveAddressAndIndex : Obligations.EffectiveAddressAndIndex := fun base imm =>
  ⟨effectiveAddress_toNat base imm, wordIndex_eq _, wordIndex_lt _⟩

/-- The two low bits of an address have no part in its index. -/
theorem wordIndex_and_not_low (a : Word) : wordIndex (a &&& 0xFFFFFFFC#32) = wordIndex a := by
  rw [wordIndex, wordIndex, BitVec.ushiftRight_and_distrib]
  congr 1
  apply BitVec.eq_of_getLsbD_eq; intro i hi
  interval_cases i <;> simp

/-- Settles O42: the two addresses have one index, and inside data memory lw and sw depend on the index alone. -/
theorem misalignedDataReachesItsWord : Obligations.MisalignedDataReachesItsWord := by
  intro rs rt imm imm' s same inside
  have index : wordIndex (effectiveAddress (s.x rs) imm) = wordIndex (effectiveAddress (s.x rs) imm') := by
    rw [← wordIndex_and_not_low, same, wordIndex_and_not_low]
  rw [← wordIndex_eq] at inside
  have inside' := index ▸ inside
  constructor
  · rw [exec_lw, exec_lw, loadAndAdvance_inside inside, loadAndAdvance_inside inside', index]
  · rw [exec_sw, exec_sw, storeAndAdvance_inside inside, storeAndAdvance_inside inside', index]

end Sys2Proof.Machine
end

section
/-! PROOFS. Canonical data memories (20_memory.md section 2): the pairs listed are the words that do not read as 0. -/

namespace Sys2Proof.Machine

/-- A canonical memory reads a listed word where it is listed. -/
theorem read_of_mem {m : Memory} (h : Memory.wf m) {c : Nat × Word} (hc : c ∈ m) : Memory.read m c.1 = c.2 := by
  induction m with
  | nil => cases hc
  | cons d m ih =>
    obtain ⟨rising, nonzero⟩ := h
    obtain ⟨first, rest⟩ := List.pairwise_cons.1 rising
    rcases List.mem_cons.1 hc with rfl | hc
    · exact if_pos rfl
    · rw [read_cons, if_neg (first c hc).ne']
      exact ih ⟨rest, fun e he => nonzero e (List.mem_cons_of_mem d he)⟩ hc

/-- A word that does not read as 0 is listed. -/
theorem mem_of_read {m : Memory} {k : Nat} (h : Memory.read m k ≠ 0#32) : (k, Memory.read m k) ∈ m := by
  induction m with
  | nil => exact absurd rfl h
  | cons d m ih =>
    obtain ⟨j, v⟩ := d
    rw [read_cons] at h ⊢
    split
    next here => exact here ▸ List.mem_cons_self
    next there =>
      rw [if_neg there] at h
      exact List.mem_cons_of_mem _ (ih h)

/-- The pairs of a canonical memory, by its reads. -/
theorem mem_iff_read {m : Memory} (h : Memory.wf m) (c : Nat × Word) :
    c ∈ m ↔ Memory.read m c.1 = c.2 ∧ c.2 ≠ 0#32 := by
  constructor
  · exact fun hc => ⟨read_of_mem h hc, h.2 c hc⟩
  · rintro ⟨hread, nonzero⟩
    have listed := mem_of_read (m := m) (k := c.1) (hread ▸ nonzero)
    rwa [hread] at listed

/-- Settles O44: the reads give the listed pairs, and the rising indices give their order. -/
theorem canonicalMemoriesAreDetermined : Obligations.CanonicalMemoriesAreDetermined := by
  intro m m' h h' same
  have : Std.Irrefl (fun a b : Nat × Word => a.1 < b.1) := ⟨fun a => Nat.lt_irrefl a.1⟩
  have : Std.Antisymm (fun a b : Nat × Word => a.1 < b.1) := ⟨fun a b hab hba => absurd hba (Nat.lt_asymm hab)⟩
  refine h.1.eq_of_mem_iff h'.1 fun c => ?_
  rw [mem_iff_read h, mem_iff_read h', same]

end Sys2Proof.Machine
end

section
/-! PROOFS. The end of a run (60_exceptions.md R191; 70_reset_and_hazards.md R216). -/

namespace Sys2Proof.Machine

theorem clock_of_marked (s : State) (f : Fault) : clock ⟨s, some f⟩ = ⟨s, some f⟩ := rfl

theorem clock_of_fault {s : State} {f : Fault} (h : step s = .fault f) : clock (startRun s) = ⟨s, some f⟩ := by
  simp only [clock, startRun, h]

theorem clock_of_next {s t : State} (h : step s = .next t) : clock (startRun s) = startRun t := by
  simp only [clock, startRun, h]

/-- What a clock leaves as it is, a run of any length leaves as it is. -/
theorem drive_of_fixed {r : Run} (h : clock r = r) (endPc : Option Word) (n : Nat) : drive endPc n r = r :=
  drive_keeps (P := (· = r)) (fun q hq => by rw [hq, h]) endPc n rfl

/-- Settles O45: a faulting step sets the mark, and a marked machine takes no clock. -/
theorem faultIsTerminal : Obligations.FaultIsTerminal := fun s f h =>
  ⟨clock_of_fault h, fun n endPc => ⟨drive_of_fixed (clock_of_marked s f) endPc n, clock_of_marked s f⟩⟩

theorem drive_of_not_running {endPc : Option Word} {r : Run} (h : runStatus endPc r ≠ .running) (n : Nat) :
    drive endPc n r = r := by
  cases n with
  | zero => rfl
  | succ n => exact if_neg h

theorem drive_of_running {endPc : Option Word} {r : Run} (h : runStatus endPc r = .running) (n : Nat) :
    drive endPc (n + 1) r = drive endPc n (clock r) := if_pos h

/-- A budget of cycles may be spent in two parts. -/
theorem drive_add (endPc : Option Word) (n m : Nat) (r : Run) :
    drive endPc (n + m) r = drive endPc m (drive endPc n r) := by
  induction n generalizing r with
  | zero => rw [Nat.zero_add]; rfl
  | succ n ih =>
    rw [Nat.add_right_comm]
    by_cases running : runStatus endPc r = .running
    · rw [drive_of_running running, drive_of_running running, ih]
    · rw [drive_of_not_running running, drive_of_not_running running, drive_of_not_running running]

/-- A run ends at END_PC alone. -/
theorem pc_of_ended {e : Word} {r : Run} (h : runStatus (some e) r = .ended) : r.state.pc = e := by
  unfold runStatus at h
  split at h
  · cases h
  · split at h
    next here => exact (Option.some.inj here).symm
    next => cases h

/-- Going on at the own address is no change. -/
theorem transferTo_self (s : State) : transferTo s s.pc = .next s := rfl

/-- The offset -1 is the branch's own address. -/
theorem branchTarget_self (pc : Word) : branchTarget pc 0xFFFF#16 = pc := by
  have back : 4#32 + branchOffset 0xFFFF#16 = 0#32 := by decide
  rw [branchTarget, sequential, BitVec.add_assoc, back, BitVec.add_zero]

/-- Settles O46: a run that is over is left as it is, and so is a state that its step leaves as it is. -/
theorem endOfRunIsStable : Obligations.EndOfRunIsStable := by
  refine ⟨fun n m e r h => ?ended, fun s a h => ?jump, fun s r => ?branch, fun s h n => ?fixed⟩
  case ended =>
    rw [drive_add]
    exact ⟨drive_of_not_running (by rw [h]; decide) m, pc_of_ended h⟩
  case jump => rw [exec_j, h, transferTo_self]
  case branch => rw [exec_beq_taken rfl, branchTarget_self, transferTo_self]
  case fixed => exact drive_of_fixed (clock_of_next h) none n

end Sys2Proof.Machine
end

section
/-! PROOFS. The register-format instructions (42_rformat.md R140 to R149): all end by writing one register, so that the
frame is `writeAndAdvance_writesOnly`, and what is left is the value in the spec's numbers or bits. -/

namespace Sys2Proof.Machine

/-- Settles O47: the shifted word in numbers. -/
theorem shiftLeftResult : Obligations.ShiftLeftResult := by
  intro rs rt rd sh s
  refine ⟨s.x rt <<< sh.toNat, ?value, writeAndAdvance_writesOnly ..⟩
  case value => rw [BitVec.toNat_shiftLeft, Nat.shiftLeft_eq]

/-- Settles O48: the wrapped sum in numbers. -/
theorem addResults : Obligations.AddResults := fun rs rt _ _ s =>
  ⟨s.x rs + s.x rt, BitVec.toNat_add .., writeAndAdvance_writesOnly .., writeAndAdvance_writesOnly ..⟩

/-- Settles O49: the wrapped difference in numbers; sub does what subu does. -/
theorem subtractResults : Obligations.SubtractResults := by
  intro rs rt rd sh s
  have subu : WritesOnly s (exec (.subu rs rt rd sh) s) rd (s.x rs - s.x rt) := writeAndAdvance_writesOnly ..
  exact ⟨s.x rs - s.x rt, sub_toNat_emod .., exec_sub_eq_exec_subu rs rt rd sh s ▸ subu, subu⟩

/-- Settles O50: each bit of the three results. -/
theorem bitwiseResults : Obligations.BitwiseResults := fun rs rt _ _ s =>
  ⟨s.x rs &&& s.x rt, s.x rs ||| s.x rt, s.x rs ^^^ s.x rt,
    fun _ _ => ⟨BitVec.getLsbD_and, BitVec.getLsbD_or, BitVec.getLsbD_xor⟩,
    writeAndAdvance_writesOnly .., writeAndAdvance_writesOnly .., writeAndAdvance_writesOnly ..⟩

/-- Settles O51: the comparison of the signed readings. -/
theorem setLessThanResult : Obligations.SetLessThanResult := by
  intro rs rt rd sh s
  rw [← setLessThan_eq]
  exact writeAndAdvance_writesOnly ..

end Sys2Proof.Machine
end

section
/-! PROOFS. The jump and the branches (43_jump_branch.md R160 to R164): each is a transfer, its target in numbers. -/

namespace Sys2Proof.Machine

/-- Where a branch goes, in numbers. -/
theorem branchChoice_toNat (taken : Prop) [Decidable taken] (pc : Word) (imm : BitVec 16) :
    ((if taken then branchTarget pc imm else sequential pc).toNat : Int) =
      ((pc.toNat : Int) + 4 + (if taken then 4 * imm.toInt else 0)) % 2 ^ 32 := by
  split
  · exact branchTarget_toNat pc imm
  · rw [sequential_toNat]
    omega

/-- Settles O52: the transfer to the assembled target. -/
theorem jumpResult : Obligations.JumpResult := fun a s =>
  ⟨jumpTarget s.pc a, jumpTarget_toNat s.pc a, transferTo_transfersTo ..⟩

/-- Settles O53: the transfer is taken at equal registers. -/
theorem branchEqualResult : Obligations.BranchEqualResult := fun rs rt imm s =>
  ⟨_, branchChoice_toNat (s.x rs = s.x rt) s.pc imm, exec_beq_transfersTo rs rt imm s⟩

/-- Settles O54: the transfer is taken at different registers. -/
theorem branchNotEqualResult : Obligations.BranchNotEqualResult := by
  intro rs rt imm s
  refine ⟨_, ?target, exec_bne_transfersTo rs rt imm s⟩
  case target => rw [branchChoice_toNat, ite_not]

end Sys2Proof.Machine
end

section
/-! PROOFS. The register-immediate instructions (44_immediate.md R170 to R174), their frame again that of one
register written. -/

namespace Sys2Proof.Machine

/-- Settles O55: the sum is formed as an effective address is, and has its number. -/
theorem addImmediateResults : Obligations.AddImmediateResults := fun rs _ imm s =>
  ⟨s.x rs + sext32 imm, effectiveAddress_toNat (s.x rs) imm, writeAndAdvance_writesOnly ..,
    writeAndAdvance_writesOnly ..⟩

/-- Settles O56: the comparison of the signed readings, the immediate's own among them. -/
theorem setLessThanImmediateResult : Obligations.SetLessThanImmediateResult := by
  intro rs rt imm s
  rw [← sext32_toInt, ← setLessThan_eq]
  exact writeAndAdvance_writesOnly ..

/-- Settles O57: the upper immediate in numbers. -/
theorem loadUpperResult : Obligations.LoadUpperResult := fun _ _ imm _ =>
  ⟨upperImmediate imm, upperImmediate_toNat imm, writeAndAdvance_writesOnly ..⟩

end Sys2Proof.Machine
end

section
/-! PROOFS. The load and the store inside data memory (45_load_store.md R180, R181). -/

namespace Sys2Proof.Machine

/-- Settles O58: lw inside data memory. -/
theorem loadWordResult : Obligations.LoadWordResult := fun _ _ _ _ => exec_lw_writesOnly

/-- Settles O59: sw inside data memory. -/
theorem storeWordResult : Obligations.StoreWordResult := fun _ _ _ _ => exec_sw_storesOnly

end Sys2Proof.Machine
end
